-- ==== Sys2Proof/Word.lean ====
section
/-! DEFINITION. The value types of SHA1-CORE: bytes, 32-bit words, 64-bit counters, the five-word hash state and the five
working variables (spec/00_scope.md R7, R9, R11). Every value is unsigned. -/

namespace Sys2Proof

/-- A payload or buffer byte (00_scope.md R9). -/
abbrev Byte := BitVec 8

/-- A 32-bit word; `+` on it is addition modulo 2^32 (00_scope.md R8). -/
abbrev Word := BitVec 32

/-- A 64-bit counter value: LEN, COUNT, REM and the bit length (00_scope.md R11). -/
abbrev DWord := BitVec 64

/-- HashState `H[0..4]` (10_state.md R21). -/
structure Hash where
  h0 : Word
  h1 : Word
  h2 : Word
  h3 : Word
  h4 : Word
deriving DecidableEq, Repr

/-- The working variables `a, b, c, d, e` (10_state.md R26). -/
structure Work where
  a : Word
  b : Word
  c : Word
  d : Word
  e : Word
deriving DecidableEq, Repr

end Sys2Proof
end

