-- ==== Sys2Proof/Config.lean ====
section
/-! DEFINITION. What is fixed for every SHA1-CORE (spec/00_scope.md R5, spec/10_state.md R22, R37). The spec leaves no value
open: its two open parameters are LAT, which no rule's value depends on (R6; log entry 8), and N_INST, which is the length
of a `System` (Machine/System.lean). -/

namespace Sys2Proof.Config

/-- Block size in bytes (R5, R37). -/
def blockBytes : Nat := 64

/-- Digest bit-length (R5, R37). -/
def digestBits : Nat := 160

/-- Digest length in bytes (R5). -/
def digestBytes : Nat := 20

/-- Hex digest length in characters (R5, R37). -/
def hexChars : Nat := 40

/-- Number of rounds, and of message schedule words (R5). -/
def rounds : Nat := 80

/-- The initialization constants IV (10_state.md R22). -/
def iv : Hash :=
  { h0 := 0x67452301, h1 := 0xefcdab89, h2 := 0x98badcfe, h3 := 0x10325476, h4 := 0xc3d2e1f0 }

end Sys2Proof.Config
end

