-- ==== Sys2Proof/Syntax.lean ====
section
/-! DEFINITION. The commands of SHA1-CORE, one constructor per row of spec/opcode_table.json, and the source lines of the
assembler (spec/30_encoding.md R72-R74, R81-R83). -/

namespace Sys2Proof

/-- A whole command transaction (30_encoding.md R72): the operation and, for the three that take one, its payload, the
COUNT bytes in message order. COUNT is the payload's length. -/
inductive Instr where
  /-- CLEAR (44_host_commands.md R210). -/
  | clear
  /-- UPDATE p (41_update.md R140). -/
  | update (p : List Byte)
  /-- FINALIZE p (42_finalize.md R160). -/
  | finalize (p : List Byte)
  /-- EVAL p (44_host_commands.md R211). -/
  | eval (p : List Byte)
deriving DecidableEq, Repr

/-- The operation field OP of a legal command word (30_encoding.md R74). -/
inductive Op where
  | clear
  | update
  | finalize
  | eval
deriving DecidableEq, Repr

/-- A payload term of the assembler (30_encoding.md R82). -/
inductive PayloadTerm where
  /-- `"text"`: the ASCII bytes of the characters, escapes already resolved. -/
  | text (chars : List Char)
  /-- `x"hh hh ..."`. -/
  | hexBytes (bytes : List Byte)
  /-- `<byte>*<n>`: the byte repeated n times. -/
  | repeated (b : Byte) (n : Nat)
deriving DecidableEq, Repr

/-- A source line (30_encoding.md R81, R83). `none` is a mnemonic without operand, a pseudo-command. -/
inductive SourceLine where
  | clear
  | update (operand : Option (List PayloadTerm))
  | finalize (operand : Option (List PayloadTerm))
  | eval (operand : Option (List PayloadTerm))
  /-- The pseudo-command `DIGEST <payload>`. -/
  | digest (operand : List PayloadTerm)
deriving DecidableEq, Repr

end Sys2Proof
end

