-- ==== Sys2Proof/Machine/State.lean ====
section
/-! DEFINITION. The state of one SHA1-CORE block and its value after reset (spec/10_state.md R20-R41), with the host's side of
the input ports (spec/30_encoding.md R70). "No value" is the spec's own reset value of the registers so marked; R41 says a model
represents it as an absent Option (log entry 2). -/

namespace Sys2Proof.Machine

/-- Why the machine stops. -/
inductive Fault where
  /-- IllegalCommand (60_exceptions.md R231, R234): raised by the sequencer and by every command in phase HALT, with the
  offending command word. Sticky until reset. Safe: nothing can be proved of a stream that faults. -/
  | illegalCommand (w : Word)
deriving DecidableEq, Repr

/-- What the model gives no meaning to. -/
inductive Refusal where
  /-- An instruction without a meaning yet. No arm of exec uses it: every command has its meaning. Safe. -/
  | notModelled (mnemonic : String)
  /-- A read of state that holds no value (10_state.md R41): raised by `digestPort` and `hexPort` while DVALID = 0, and by the
  sequencer where a transient register is read outside its command. No state of a run meets the latter. Safe. -/
  | noValue
  /-- A transfer offered by a host other than the one that drives the block (70_reset_and_hazards.md R268, ID13): raised by
  `systemOfferWord`, `systemOfferByte`, `systemDriveRst`. Safe. -/
  | secondHost
  /-- An operation on a block number the system does not hold (60_exceptions.md R243): raised by the `system` operations. Safe. -/
  | noSuchBlock
deriving DecidableEq, Repr

/-- The sequencer phase (10_state.md R33). HALT carries the offending command word, the model's own record of it
(60_exceptions.md R231; log entry 3); no output shows it. -/
inductive Phase where
  | idle
  | cntLo
  | cntHi
  | absorb
  | compress
  | pad
  | encode
  | halt (offending : Word)
deriving DecidableEq, Repr

/-- The STATUS bits (10_state.md R30); bits 31:3 are hardwired zero and are supplied by the status port. -/
structure Status where
  /-- Bit 0 (R31). -/
  busy : Bool
  /-- Bit 1 (R32). -/
  dvalid : Bool
  /-- Bit 2 (R34). -/
  err : Bool
deriving DecidableEq, Repr

/-- A digest context: HashState, MessageLength, PendingBuffer (10_state.md R20). BUF is the byte sequence BUF[0..BUFLEN) (R24). -/
structure Ctx where
  h : Hash
  len : DWord
  buf : List Byte
deriving DecidableEq, Repr

/-- The phase a compression returns to (40_compression.md R112; log entry 4). -/
inductive Caller where
  | absorb
  | pad
deriving DecidableEq, Repr

/-- The next step of phase PAD (42_finalize.md R172; log entry 4). -/
inductive PadStep where
  | terminator
  | lengthField
  | done
deriving DecidableEq, Repr

/-- The serializer's registers in phase ENCODE (43_digest_encoding.md R199): the shift register S, the word and nibble indices, and
what has been produced so far. -/
structure Encoder where
  shift : Word
  j : Nat
  m : Nat
  hexDone : List Byte
  rawDone : List Byte
deriving DecidableEq, Repr

/-- The transient registers (10_state.md R26, R27, R35, R36, and those R33 and R112 imply; log entry 4). Each is absent outside the
part of a command that uses it. -/
structure Transient where
  /-- The OP of the running command. -/
  op : Option Op
  /-- The COUNT_LO word taken in phase CNT_LO (30_encoding.md R75). -/
  cntLo : Option Word
  /-- REM (R35). -/
  rem : Option DWord
  /-- EVAL's private context (R36). -/
  priv : Option Ctx
  /-- `a, b, c, d, e` (R26). -/
  work : Option Work
  /-- The message schedule words computed so far (R27). -/
  sched : Option (List Word)
  /-- The round index t (R27). -/
  round : Option Nat
  /-- Where COMPRESS returns to. -/
  ret : Option Caller
  /-- The next step of PAD. -/
  pad : Option PadStep
  /-- The serializer. -/
  enc : Option Encoder
deriving DecidableEq, Repr

/-- One SHA1-CORE block and the host's side of its input ports. -/
structure State where
  /-- H, LEN, BUF (R21, R23, R24). -/
  ctx : Ctx
  /-- DIGEST[0..19], or no value (R28). -/
  digest : Option (List Byte)
  /-- HEX[0..39], or no value (R29). -/
  hex : Option (List Byte)
  /-- STATUS (R30). -/
  status : Status
  /-- The sequencer phase (R33). -/
  phase : Phase
  /-- The transient registers. -/
  trans : Transient
  /-- The `rst` pin, driven by the host (30_encoding.md R70). -/
  rst : Bool
  /-- The words the host offers on the command port, next one first (R70, R71). -/
  cmdIn : List Word
  /-- The bytes the host offers on the payload port, next one first (R70, R71). -/
  payIn : List Byte
deriving DecidableEq, Repr

/-- The initial digest context (10_state.md R40: H = IV, LEN = 0, BUF empty). -/
def Ctx.initial : Ctx := { h := Config.iv, len := 0, buf := [] }

/-- No transient register holds a value (10_state.md R40). -/
def Transient.empty : Transient :=
  { op := none, cntLo := none, rem := none, priv := none, work := none, sched := none, round := none, ret := none,
    pad := none, enc := none }

/-- STATUS after reset (10_state.md R40). -/
def Status.cleared : Status := { busy := false, dvalid := false, err := false }

/-- The machine right after reset (10_state.md R40, 70_reset_and_hazards.md R260): `rst` is back at 0 and the host offers nothing
(log entry 5). -/
def State.reset : State :=
  { ctx := Ctx.initial, digest := none, hex := none, status := Status.cleared, phase := .idle, trans := Transient.empty,
    rst := false, cmdIn := [], payIn := [] }

end Sys2Proof.Machine
end

