-- ==== Sys2Proof/Machine/Operands.lean ====
section
/-! DEFINITION. The word and byte views of the spec's notation (spec/00_scope.md R7-R9, spec/20_memory.md R52-R55): rotation,
big-endian packing and unpacking, and the words of H. -/

namespace Sys2Proof.Machine

/-- `rotl(x, n)`, for 0 < n < 32: `((x << n) OR (x >> (32 - n)))[31:0]` (00_scope.md R8). -/
def rotl (x : Word) (n : Nat) : Word := (x <<< n) ||| (x >>> (32 - n))

/-- `be32(b0, b1, b2, b3)` (00_scope.md R9). -/
def be32 (b0 b1 b2 b3 : Byte) : Word :=
  (b0.setWidth 32 <<< 24) ||| (b1.setWidth 32 <<< 16) ||| (b2.setWidth 32 <<< 8) ||| b3.setWidth 32

/-- `bytes_be32(x) = [x[31:24], x[23:16], x[15:8], x[7:0]]` (00_scope.md R9). -/
def bytesBe32 (x : Word) : List Byte :=
  [x.extractLsb' 24 8, x.extractLsb' 16 8, x.extractLsb' 8 8, x.extractLsb' 0 8]

/-- `bytes_be64(v)`: the 8 bytes of a 64-bit value, most significant first (00_scope.md R9). -/
def bytesBe64 (v : DWord) : List Byte :=
  [v.extractLsb' 56 8, v.extractLsb' 48 8, v.extractLsb' 40 8, v.extractLsb' 32 8,
   v.extractLsb' 24 8, v.extractLsb' 16 8, v.extractLsb' 8 8, v.extractLsb' 0 8]

/-- `H[0..4]` as a list, in word order (10_state.md R21). -/
def hashWords (h : Hash) : List Word := [h.h0, h.h1, h.h2, h.h3, h.h4]

/-- `H[j]`, for 0 <= j <= 4 (00_scope.md R10). -/
def hashWord (h : Hash) (j : Nat) : Word := (hashWords h).getD j 0

/-- The number of payload bytes, COUNT, as a 64-bit value (30_encoding.md R75). -/
def payloadCount (p : List Byte) : DWord := BitVec.ofNat 64 p.length

/-- A byte sequence on an output bus, first byte in the top bits (30_encoding.md R85, R86). -/
def packBytes (n : Nat) (bytes : List Byte) : BitVec n :=
  bytes.foldl (fun acc b => (acc <<< 8) ||| b.setWidth n) 0

end Sys2Proof.Machine
end

