-- ==== Sys2Proof/Machine/Compress.lean ====
section
/-! DEFINITION. The compression function (spec/40_compression.md R100-R111): the 80-word message schedule, the mixing functions and
constants, the rounds and the final addition. A pure function of five words and a 64-byte block (R100). -/

namespace Sys2Proof.Machine

/-- Bytes to big-endian words: `W[j] = be32(blk[4j], blk[4j+1], blk[4j+2], blk[4j+3])` (R101, 20_memory.md R52). -/
def blockWords : List Byte → List Word
  | b0 :: b1 :: b2 :: b3 :: rest => be32 b0 b1 b2 b3 :: blockWords rest
  | _ => []

/-- `W[t]` for t >= 16, from the words before it (R102). -/
def scheduleWord (w : List Word) (t : Nat) : Word :=
  rotl (w.getD (t - 3) 0 ^^^ w.getD (t - 8) 0 ^^^ w.getD (t - 14) 0 ^^^ w.getD (t - 16) 0) 1

/-- `W[0..16)` extended by n words, up to `W[16 + n)` (R102). -/
def extendSchedule (w : List Word) : Nat → List Word
  | 0 => w
  | n + 1 => extendSchedule w n ++ [scheduleWord (extendSchedule w n) (16 + n)]

/-- The message schedule `W[0..79]` (R101, R102). -/
def schedule (blk : List Byte) : List Word := extendSchedule (blockWords blk) 64

/-- The round constant `K(t)`, with g = t div 20 (R103). -/
def roundConst (t : Nat) : Word :=
  match t / 20 with
  | 0 => 0x5a827999
  | 1 => 0x6ed9eba1
  | 2 => 0x8f1bbcdc
  | _ => 0xca62c1d6

/-- `f0`, rounds 0-19 (R104). -/
def mix0 (x y z : Word) : Word := (x &&& y) ||| (~~~x &&& z)

/-- `f1`, rounds 20-39 (R105). -/
def mix1 (x y z : Word) : Word := x ^^^ y ^^^ z

/-- `f2`, rounds 40-59 (R106). -/
def mix2 (x y z : Word) : Word := (x &&& y) ||| (x &&& z) ||| (y &&& z)

/-- `f3`, rounds 60-79 (R107). -/
def mix3 (x y z : Word) : Word := x ^^^ y ^^^ z

/-- `f(t, x, y, z) = f_g(x, y, z)` with g = t div 20 (R107). -/
def mix (t : Nat) (x y z : Word) : Word :=
  match t / 20 with
  | 0 => mix0 x y z
  | 1 => mix1 x y z
  | 2 => mix2 x y z
  | _ => mix3 x y z

/-- Loading the working variables: a..e = H[0..4] (R108). -/
def loadWork (h : Hash) : Work := { a := h.h0, b := h.h1, c := h.h2, d := h.h3, e := h.h4 }

/-- One round t, with W[t] = w (R109). -/
def roundStep (t : Nat) (w : Word) (v : Work) : Work :=
  { a := rotl v.a 5 + mix t v.b v.c v.d + v.e + roundConst t + w
    b := v.a
    c := rotl v.b 30
    d := v.c
    e := v.d }

/-- Rounds 0..n-1 (R110). -/
def runRounds (w : List Word) (v : Work) : Nat → Work
  | 0 => v
  | n + 1 => roundStep n (w.getD n 0) (runRounds w v n)

/-- The final addition of the working variables to the state words, modulo 2^32 (R110). -/
def addWork (h : Hash) (v : Work) : Hash :=
  { h0 := h.h0 + v.a, h1 := h.h1 + v.b, h2 := h.h2 + v.c, h3 := h.h3 + v.d, h4 := h.h4 + v.e }

/-- `compress(Hin, blk)` (R110). -/
def compress (h : Hash) (blk : List Byte) : Hash :=
  addWork h (runRounds (schedule blk) (loadWork h) 80)

/-- Compress the first n 64-byte blocks of a byte sequence in order, each from the H the previous one left (20_memory.md R60). -/
def compressBlocks : Nat → Hash → List Byte → Hash
  | 0, h, _ => h
  | n + 1, h, bytes => compressBlocks n (compress h (bytes.take 64)) (bytes.drop 64)

/-- One round with the schedule in a 16-entry circular store: round t uses and overwrites entry t mod 16, computing W[t] just
before it is used when t >= 16 (R111). -/
def windowRound (t : Nat) (sv : List Word × Work) : List Word × Work :=
  let store :=
    if t < 16 then sv.1
    else sv.1.set (t % 16)
      (rotl (sv.1.getD ((t - 3) % 16) 0 ^^^ sv.1.getD ((t - 8) % 16) 0 ^^^ sv.1.getD ((t - 14) % 16) 0
        ^^^ sv.1.getD ((t - 16) % 16) 0) 1)
  (store, roundStep t (store.getD (t % 16) 0) sv.2)

/-- Rounds 0..n-1 on the circular store (R111). -/
def windowRounds (sv : List Word × Work) : Nat → List Word × Work
  | 0 => sv
  | n + 1 => windowRound n (windowRounds sv n)

/-- The compression function of a build that holds the last 16 schedule words only (R111). -/
def compressWindow (h : Hash) (blk : List Byte) : Hash :=
  addWork h (windowRounds (blockWords blk, loadWork h) 80).2

end Sys2Proof.Machine
end

