-- ==== Sys2Proof/Machine/DigestEncoding.lean ====
section
/-! DEFINITION. The serializer of the five words to 20 raw bytes and 40 hex characters (spec/43_digest_encoding.md R190-R197). -/

namespace Sys2Proof.Machine

/-- `serialize_raw(H)`: `bytes_be32(H[0]) ++ ... ++ bytes_be32(H[4])` (R190). -/
def serializeRaw (h : Hash) : List Byte :=
  bytesBe32 h.h0 ++ bytesBe32 h.h1 ++ bytesBe32 h.h2 ++ bytesBe32 h.h3 ++ bytesBe32 h.h4

/-- `hexchar(v)`: the ASCII code of the v-th character of 0123456789abcdef (R191). -/
def hexChar (v : BitVec 4) : Byte :=
  if v.toNat ≤ 9 then 0x30 + v.setWidth 8 else 0x61 + (v.setWidth 8 - 10)

/-- The two characters of a byte, high nibble first (R192). -/
def hexPair (b : Byte) : List Byte := [hexChar (b.extractLsb' 4 4), hexChar (b.extractLsb' 0 4)]

/-- The hex spelling of a byte sequence (R192). -/
def hexOfBytes : List Byte → List Byte
  | [] => []
  | b :: bs => hexPair b ++ hexOfBytes bs

/-- `serialize_hex(H)` (R192). -/
def serializeHex (h : Hash) : List Byte := hexOfBytes (serializeRaw h)

/-- The nibble a lowercase hex character stands for (R197, reading R191 backwards). -/
def hexValue (c : Byte) : Option (BitVec 4) :=
  if 0x30 ≤ c.toNat ∧ c.toNat ≤ 0x39 then some (BitVec.ofNat 4 (c.toNat - 0x30))
  else if 0x61 ≤ c.toNat ∧ c.toNat ≤ 0x66 then some (BitVec.ofNat 4 (c.toNat - 0x61 + 10))
  else none

/-- Decoding a hex string two characters at a time, high nibble first (R197). -/
def bytesOfHex : List Byte → Option (List Byte)
  | [] => some []
  | c :: d :: rest => do
    let hi ← hexValue c
    let lo ← hexValue d
    let bs ← bytesOfHex rest
    pure ((hi ++ lo) :: bs)
  | [_] => none

end Sys2Proof.Machine
end

