-- ==== Sys2Proof/Machine/Flags.lean ====
section
/-! DEFINITION. The STATUS bits (spec/10_state.md R30-R32, R34). The block has no other flag and no arithmetic flag (R39). -/

namespace Sys2Proof.Machine

/-- Whether a command writes DIGEST and HEX: FINALIZE and EVAL (10_state.md R28). -/
def producesDigest : Op → Bool
  | .clear => false
  | .update => false
  | .finalize => true
  | .eval => true

/-- Acceptance of a legal command word: BUSY becomes 1 (R31), and DVALID becomes 0 for a FINALIZE or EVAL (R32). -/
def statusAccept (op : Op) (st : Status) : Status :=
  { st with busy := true, dvalid := if producesDigest op then false else st.dvalid }

/-- DIGEST and HEX are written: DVALID becomes 1 (R32). -/
def statusValid (st : Status) : Status := { st with dvalid := true }

/-- The command completes: BUSY becomes 0 (R31). -/
def statusDone (st : Status) : Status := { st with busy := false }

/-- IllegalCommand: ERR becomes 1 (R34). -/
def statusError (st : Status) : Status := { st with err := true }

/-- STATUS as the 32-bit word of the status bus: bit 0 BUSY, bit 1 DVALID, bit 2 ERR, bits 31:3 zero (R30, 30_encoding.md R87). -/
def statusWord (st : Status) : Word :=
  (BitVec.ofBool st.busy).setWidth 32 ||| ((BitVec.ofBool st.dvalid).setWidth 32 <<< 1)
    ||| ((BitVec.ofBool st.err).setWidth 32 <<< 2)

end Sys2Proof.Machine
end

