-- ==== Sys2Proof/Machine/Ops.lean ====
section
/-! DEFINITION. The named operations over the state: the pending buffer (spec/00_scope.md R10), accepting and completing a
command (spec/10_state.md R31-R36), taking the exception IllegalCommand (spec/60_exceptions.md R232) and leaving it, which only
reset does (R233). -/

namespace Sys2Proof.Machine

/-- `MemRead(i, n)`: `BUF[i..i+n)` (00_scope.md R10). -/
def memRead (buf : List Byte) (i n : Nat) : List Byte := (buf.drop i).take n

/-- `MemWrite(i, |v|, v)`: bytes `v` at `BUF[i..i+|v|)` (00_scope.md R10). At i = BUFLEN it appends. -/
def memWrite (buf : List Byte) (i : Nat) (v : List Byte) : List Byte := buf.take i ++ v ++ buf.drop (i + v.length)

/-- Reset, while `rst = 1` (70_reset_and_hazards.md R260, R261): every piece of state takes its value of 10_state.md R40, no
transfer is taken, so what the host offers stays offered. -/
def State.applyReset (s : State) : State :=
  { State.reset with rst := s.rst, cmdIn := s.cmdIn, payIn := s.payIn }

/-- Taking IllegalCommand (60_exceptions.md R232): ERR <- 1 and phase <- HALT, nothing else. -/
def State.raiseIllegal (w : Word) (s : State) : State :=
  { s with status := statusError s.status, phase := .halt w }

/-- Acceptance of the word of a command with a payload (10_state.md R31, R32, R36): BUSY is 1, a FINALIZE or EVAL leaves DIGEST and
HEX without value (log entry 6), EVAL's private context is set to the reset values, and the COUNT words come next. -/
def State.beginCommand (op : Op) (s : State) : State :=
  { s with
    status := statusAccept op s.status
    digest := if producesDigest op then none else s.digest
    hex := if producesDigest op then none else s.hex
    phase := .cntLo
    trans := { Transient.empty with op := some op, priv := if op = .eval then some Ctx.initial else none } }

/-- Completion of a command: BUSY is 0, the phase is IDLE and no transient register holds a value (10_state.md R31, R33, R35, R36). -/
def State.finishCommand (s : State) : State :=
  { s with status := statusDone s.status, phase := .idle, trans := Transient.empty }

/-- H <- IV, LEN <- 0, BUF <- [] (44_host_commands.md R210, 42_finalize.md R168). -/
def State.clearContext (s : State) : State := { s with ctx := Ctx.initial }

/-- DIGEST and HEX are written, and DVALID becomes 1, in one step (43_digest_encoding.md R198, 42_finalize.md R169). -/
def State.writeOutputs (raw hex : List Byte) (s : State) : State :=
  { s with digest := some raw, hex := some hex, status := statusValid s.status }

/-- A command acts only when the block can accept its word. Reset comes first (60_exceptions.md R236). In IDLE the command runs. In
HALT no command is accepted and the fault is sticky (10_state.md R34, 60_exceptions.md R233, R234). While another command runs the
word is held, not taken (70_reset_and_hazards.md R266). -/
def whenAccepted (s : State) (run : State → State) : Host.Outcome State Fault Refusal :=
  if s.rst then .next s.applyReset
  else
    match s.phase with
    | .idle => .next (run s)
    | .halt w => .fault (.illegalCommand w)
    | _ => .next s

end Sys2Proof.Machine
end

