-- ==== Sys2Proof/Machine/Finalize.lean ====
section
/-! DEFINITION. FINALIZE (spec/42_finalize.md R160-R175): padding, the last compressions, the outputs and the reinitialization. The
padding follows spec/90_conflicts.md C1. -/

namespace Sys2Proof.Machine

/-- `pads`, the number of terminator and zero bytes for a tail of n bytes, 1..64 (R162). -/
def padsOf (n : Nat) : Nat :=
  let rem := n % 64
  let pads := if rem > 56 then 120 - rem else 56 - rem
  if pads = 0 then 64 else pads

/-- `bitlen = (8 * LEN) mod 2^64` (R164). -/
def bitLength (len : DWord) : DWord := 8 * len

/-- The padding after a tail of n bytes: 0x80, `pads - 1` zero bytes, the big-endian bit length (R163). -/
def padding (n : Nat) (len : DWord) : List Byte :=
  [0x80] ++ List.replicate (padsOf n - 1) 0x00 ++ bytesBe64 (bitLength len)

/-- `padded` (R165). -/
def paddedMessage (tail : List Byte) (len : DWord) : List Byte := tail ++ padding tail.length len

/-- H after FINALIZE(p)'s last compression: LEN takes COUNT in (R161), the tail is BUF ++ p, and every block of the padded tail is
compressed in order (R166). -/
def Ctx.finalHash (c : Ctx) (p : List Byte) : Hash :=
  let padded := paddedMessage (c.buf ++ p) (c.len + payloadCount p)
  compressBlocks (padded.length / 64) c.h padded

/-- `SHA1(m)`: the digest of m from the initial context (R175). -/
def sha1Raw (m : List Byte) : List Byte := serializeRaw (Ctx.initial.finalHash m)

/-- `SHA1hex(m)` (R175). -/
def sha1Hex (m : List Byte) : List Byte := serializeHex (Ctx.initial.finalHash m)

/-- The digest of FINALIZE(p) run on a context, written to DIGEST and HEX (R160, R167, R169). -/
def publishDigest (c : Ctx) (p : List Byte) (s : State) : State :=
  s.writeOutputs (serializeRaw (c.finalHash p)) (serializeHex (c.finalHash p))

/-- The effect of FINALIZE p and its completion (R160, R168): the outputs, and the context back at its initial values. -/
def finalizeEffect (p : List Byte) (s : State) : State :=
  (publishDigest s.ctx p { s with status := statusAccept .finalize s.status }).clearContext.finishCommand

/-- FINALIZE p (R160). -/
def execFinalize (p : List Byte) (s : State) : Host.Outcome State Fault Refusal := whenAccepted s (finalizeEffect p)

end Sys2Proof.Machine
end

