-- ==== Sys2Proof/Machine/HostCommands.lean ====
section
/-! DEFINITION. CLEAR and EVAL (spec/44_host_commands.md R210, R211). -/

namespace Sys2Proof.Machine

/-- The effect of CLEAR and its completion: H, LEN and BUF only (R210). -/
def clearEffect (s : State) : State :=
  State.finishCommand (State.clearContext { s with status := statusAccept .clear s.status })

/-- CLEAR (R210). -/
def execClear (s : State) : Host.Outcome State Fault Refusal := whenAccepted s clearEffect

/-- The effect of EVAL p and its completion (R211): FINALIZE(p) on a private context at its initial values; the block's own context
is neither read nor written. -/
def evalEffect (p : List Byte) (s : State) : State :=
  (publishDigest Ctx.initial p { s with status := statusAccept .eval s.status }).finishCommand

/-- EVAL p (R211). -/
def execEval (p : List Byte) (s : State) : Host.Outcome State Fault Refusal := whenAccepted s (evalEffect p)

end Sys2Proof.Machine
end

