-- ==== Sys2Proof/Machine/Update.lean ====
section
/-! DEFINITION. UPDATE (spec/41_update.md R140-R149) on a digest context, and as a command. -/

namespace Sys2Proof.Machine

/-- Steps 2 and 3 of UPDATE, with BUFLEN = 0: compress the full blocks of the remaining payload, and keep the 0..63 bytes after
them as BUF (R143, R144). -/
def Ctx.absorbBlocks (c : Ctx) (p : List Byte) : Ctx :=
  { c with h := compressBlocks (p.length / 64) c.h p, buf := p.drop (64 * (p.length / 64)) }

/-- UPDATE(p) on a context (R140): LEN (R141), then step 1 on a non-empty buffer (R142), then steps 2 and 3. -/
def Ctx.update (c : Ctx) (p : List Byte) : Ctx :=
  let len := c.len + payloadCount p
  if 0 < c.buf.length then
    let k := min (64 - c.buf.length) p.length
    let buf := memWrite c.buf c.buf.length (p.take k)
    if buf.length = 64 then
      Ctx.absorbBlocks { h := compress c.h (memRead buf 0 64), len := len, buf := [] } (p.drop k)
    else { c with len := len, buf := buf }
  else Ctx.absorbBlocks { c with len := len } p

/-- The effect of UPDATE p and its completion (R140, R148): the context only; outputs and DVALID are left alone. -/
def updateEffect (p : List Byte) (s : State) : State :=
  State.finishCommand { s with ctx := s.ctx.update p, status := statusAccept .update s.status }

/-- UPDATE p (R140). -/
def execUpdate (p : List Byte) (s : State) : Host.Outcome State Fault Refusal := whenAccepted s (updateEffect p)

end Sys2Proof.Machine
end

