-- ==== Sys2Proof/Machine/Dispatch.lean ====
section
/-! DEFINITION. One arm per command of spec/opcode_table.json, each one call of the command's meaning. -/

namespace Sys2Proof.Machine

def exec (i : Instr) (s : State) : Host.Outcome State Fault Refusal :=
  match i with
  | .clear => Sys2Proof.Machine.execClear s
  | .update p => Sys2Proof.Machine.execUpdate p s
  | .finalize p => Sys2Proof.Machine.execFinalize p s
  | .eval p => Sys2Proof.Machine.execEval p s

end Sys2Proof.Machine
end

