-- ==== Sys2Proof/WellFormed.lean ====
section
/-! DEFINITION. Which commands and source terms are well formed. A legal command has no illegal operands
(spec/30_encoding.md R79): the one bound is the 64-bit width of COUNT (R75, spec/00_scope.md R5). -/

namespace Sys2Proof

/-- The payload of a command; CLEAR has none (30_encoding.md R72). -/
def Instr.payload : Instr → List Byte
  | .clear => []
  | .update p => p
  | .finalize p => p
  | .eval p => p

/-- The payload length fits the 64-bit COUNT (00_scope.md R5, 30_encoding.md R75). -/
abbrev Instr.WellFormed (i : Instr) : Prop := i.payload.length < 2 ^ 64

/-- A text term holds ASCII characters only (30_encoding.md R82); the other terms have no ill-formed value. -/
def PayloadTerm.wellFormed : PayloadTerm → Bool
  | .text chars => chars.all fun c => decide (c.toNat < 128)
  | .hexBytes _ => true
  | .repeated _ _ => true

/-- The payload terms of a source line (30_encoding.md R81). -/
def SourceLine.terms : SourceLine → List PayloadTerm
  | .clear => []
  | .update o => o.getD []
  | .finalize o => o.getD []
  | .eval o => o.getD []
  | .digest o => o

/-- Every term of the line is well formed. -/
def SourceLine.wellFormed (l : SourceLine) : Bool := l.terms.all PayloadTerm.wellFormed

end Sys2Proof
end

