-- ==== Sys2Proof/Decode.lean ====
section
/-! DEFINITION. Decoding and encoding of command transactions (spec/30_encoding.md R72-R79, R84). The command port carries
32-bit words and the payload port bytes, so an encoding is a list of words and a list of bytes. -/

namespace Sys2Proof

/-- OP, bits 3:0 of a command word (R73). -/
def opField (w : Word) : BitVec 4 := w.extractLsb' 0 4

/-- RSVD, bits 31:4 of a command word (R73). -/
def rsvdField (w : Word) : BitVec 28 := w.extractLsb' 4 28

/-- The operation of a legal command word; `none` is an illegal word, one with RSVD != 0 or a reserved OP (R74, R78). -/
def decodeOp (w : Word) : Option Op :=
  if rsvdField w = 0 then
    match (opField w).toNat with
    | 1 => some .clear
    | 2 => some .update
    | 3 => some .finalize
    | 4 => some .eval
    | _ => none
  else none

/-- The command word of an operation (R74). -/
def Op.word : Op → Word
  | .clear => 0x00000001
  | .update => 0x00000002
  | .finalize => 0x00000003
  | .eval => 0x00000004

/-- The number of command-port words of a transaction, from OP alone (R77). -/
def Op.words : Op → Nat
  | .clear => 1
  | .update => 3
  | .finalize => 3
  | .eval => 3

/-- COUNT assembly: `(zext_64(COUNT_HI) << 32) OR zext_64(COUNT_LO)` (R75). -/
def countOf (lo hi : Word) : DWord := (hi.setWidth 64 <<< 32) ||| lo.setWidth 64

/-- What the decoder makes of the words and bytes the host offers. -/
inductive Decoded where
  /-- A whole transaction, and the words and bytes after it. -/
  | complete (i : Instr) (words : List Word) (bytes : List Byte)
  /-- The first word is no command word (R78); it has length one word (R77). -/
  | illegal (w : Word) (words : List Word)
  /-- The first word is legal or absent, and the transaction is not all there yet. -/
  | incomplete
deriving DecidableEq, Repr

/-- The rest of a transaction with a payload: COUNT_LO, COUNT_HI, then COUNT bytes (R72, R75, R76). -/
def decodePayload (mk : List Byte → Instr) : List Word → List Byte → Decoded
  | lo :: hi :: ws, bs =>
    if (countOf lo hi).toNat ≤ bs.length then
      .complete (mk (bs.take (countOf lo hi).toNat)) ws (bs.drop (countOf lo hi).toNat)
    else .incomplete
  | _, _ => .incomplete

/-- Decode the transaction at the head of the command port and the payload port (R72, R77, R78). -/
def decode : List Word → List Byte → Decoded
  | [], _ => .incomplete
  | w :: ws, bs =>
    match decodeOp w with
    | none => .illegal w ws
    | some .clear => .complete .clear ws bs
    | some .update => decodePayload Instr.update ws bs
    | some .finalize => decodePayload Instr.finalize ws bs
    | some .eval => decodePayload Instr.eval ws bs

/-- The operation of a command. -/
def Instr.op : Instr → Op
  | .clear => .clear
  | .update _ => .update
  | .finalize _ => .finalize
  | .eval _ => .eval

/-- The two COUNT words of a payload: `|p| mod 2^32` and `|p| >> 32` (R84). -/
def countWords (p : List Byte) : List Word :=
  [BitVec.ofNat 32 (p.length % 2 ^ 32), BitVec.ofNat 32 (p.length / 2 ^ 32)]

/-- The port transfers of a command: its command-port words and its payload bytes (R84). -/
def encode : Instr → List Word × List Byte
  | .clear => ([Op.clear.word], [])
  | .update p => (Op.update.word :: countWords p, p)
  | .finalize p => (Op.finalize.word :: countWords p, p)
  | .eval p => (Op.eval.word :: countWords p, p)

/-- The transfers of a stream of commands: their words and their bytes, each in order (R72, R84). -/
def assemble : List Instr → List Word × List Byte
  | [] => ([], [])
  | i :: is => ((encode i).1 ++ (assemble is).1, (encode i).2 ++ (assemble is).2)

/-- The transfers of an instruction given as the opcode table numbers its bits (bit 0 is bit 0 of the first word): the
command word, the COUNT words where OP takes them (R77), and a payload of COUNT zero bytes. Bits from `nbits` up are 0. -/
def tableTransfers (nbits w : Nat) : List Word × List Byte :=
  let bits := w % 2 ^ nbits
  let first := BitVec.ofNat 32 bits
  let lo := BitVec.ofNat 32 (bits / 2 ^ 32)
  let hi := BitVec.ofNat 32 (bits / 2 ^ 64)
  match (decodeOp first).map Op.words with
  | some 3 => ([first, lo, hi], List.replicate (countOf lo hi).toNat 0)
  | _ => ([first], [])

/-- The instruction the decoder reads from table bits; `none` where it refuses. -/
def decodeTableWord (nbits w : Nat) : Option Instr :=
  match decode (tableTransfers nbits w).1 (tableTransfers nbits w).2 with
  | .complete i _ _ => some i
  | _ => none

end Sys2Proof
end

