-- ==== Sys2Proof/Machine/Sequencer.lean ====
section
/-! DEFINITION. The reference sequencer (spec/10_state.md R33, spec/41_update.md R145, spec/40_compression.md R112,
spec/42_finalize.md R172, spec/43_digest_encoding.md R199): one port transfer or one internal step at a time. It moves a command
whose transaction the host has not offered in full, and where the host offers nothing it waits (30_encoding.md R71,
70_reset_and_hazards.md R269). A transient register read where it holds no value is refused (10_state.md R41). -/

namespace Sys2Proof.Machine

/-- The context the running command works on: EVAL's private one, else the block's own (10_state.md R36). -/
def State.activeCtx (s : State) : Option Ctx :=
  match s.trans.op with
  | some .eval => s.trans.priv
  | some _ => some s.ctx
  | none => none

/-- Write the context the running command works on (10_state.md R36). -/
def State.setActive (c : Ctx) (s : State) : State :=
  match s.trans.op with
  | some .eval => { s with trans := { s.trans with priv := some c } }
  | _ => { s with ctx := c }

/-- The phase a compression returns to (40_compression.md R112). -/
def Caller.phase : Caller → Phase
  | .absorb => .absorb
  | .pad => .pad

/-- IDLE: take a command word. An illegal one raises IllegalCommand (60_exceptions.md R231); CLEAR is the word alone; the others go on
to their COUNT words (30_encoding.md R72). -/
def seqIdle (s : State) : Host.Outcome State Fault Refusal :=
  match s.cmdIn with
  | [] => .next s
  | w :: ws =>
    match decodeOp w with
    | none => .next (State.raiseIllegal w { s with cmdIn := ws })
    | some .clear => .next (clearEffect { s with cmdIn := ws })
    | some .update => .next (State.beginCommand .update { s with cmdIn := ws })
    | some .finalize => .next (State.beginCommand .finalize { s with cmdIn := ws })
    | some .eval => .next (State.beginCommand .eval { s with cmdIn := ws })

/-- CNT_LO: take COUNT_LO, whatever its value (30_encoding.md R75). -/
def seqCntLo (s : State) : Host.Outcome State Fault Refusal :=
  match s.cmdIn with
  | [] => .next s
  | w :: ws => .next { s with cmdIn := ws, phase := .cntHi, trans := { s.trans with cntLo := some w } }

/-- CNT_HI: take COUNT_HI; REM <- COUNT and LEN <- (LEN + COUNT) mod 2^64 (30_encoding.md R75, 41_update.md R145). -/
def seqCntHi (s : State) : Host.Outcome State Fault Refusal :=
  match s.cmdIn with
  | [] => .next s
  | hi :: ws =>
    match s.trans.cntLo, s.activeCtx with
    | some lo, some c =>
      .next (State.setActive { c with len := c.len + countOf lo hi }
        { s with
          cmdIn := ws
          phase := .absorb
          trans := { s.trans with cntLo := none, rem := some (countOf lo hi) } })
    | _, _ => .refused .noValue

/-- The payload is complete: UPDATE ends, FINALIZE and EVAL go on to PAD (41_update.md R145, 42_finalize.md R172). -/
def seqPayloadDone (s : State) : State :=
  match s.trans.op with
  | some .finalize => { s with phase := .pad, trans := { s.trans with pad := some .terminator } }
  | some .eval => { s with phase := .pad, trans := { s.trans with pad := some .terminator } }
  | _ => s.finishCommand

/-- One payload byte: append it, REM <- REM - 1, and compress when BUF holds 64 bytes (41_update.md R145). -/
def seqTakeByte (b : Byte) (r : DWord) (c : Ctx) (s : State) : State :=
  let buf := memWrite c.buf c.buf.length [b]
  let s := State.setActive { c with buf := buf } { s with trans := { s.trans with rem := some (r - 1) } }
  if buf.length = 64 then { s with phase := .compress, trans := { s.trans with ret := some .absorb } } else s

/-- ABSORB (41_update.md R145): while REM > 0 take the next payload byte, waiting for it if the host offers none. -/
def seqAbsorb (s : State) : Host.Outcome State Fault Refusal :=
  match s.trans.rem, s.activeCtx with
  | some r, some c =>
    if r = 0 then .next (seqPayloadDone s)
    else
      match s.payIn with
      | [] => .next s
      | b :: bs => .next (seqTakeByte b r c { s with payIn := bs })
  | _, _ => .refused .noValue

/-- One step of COMPRESS (40_compression.md R112): step 0 loads W[0..15] and a..e; steps 1..80 are rounds t = 0..79, computing W[t]
when t >= 16; step 81 adds a..e into H, empties BUF and returns to the caller. -/
def seqCompress (s : State) : Host.Outcome State Fault Refusal :=
  match s.activeCtx, s.trans.ret with
  | some c, some ret =>
    match s.trans.work, s.trans.sched, s.trans.round with
    | none, none, none =>
      .next { s with
        trans := { s.trans with
          work := some (loadWork c.h), sched := some (blockWords (memRead c.buf 0 64)), round := some 0 } }
    | some v, some w, some t =>
      let w := if t < 16 then w else w ++ [scheduleWord w t]
      .next { s with
        trans := { s.trans with
          work := some (roundStep t (w.getD t 0) v), sched := some w,
          round := if t < 79 then some (t + 1) else none } }
    | some v, some _, none =>
      .next (State.setActive { c with h := addWork c.h v, buf := [] }
        { s with
          phase := ret.phase
          trans := { s.trans with work := none, sched := none, ret := none } })
    | _, _, _ => .refused .noValue
  | _, _ => .refused .noValue

/-- `zero-fill BUF[BUFLEN..n)` (42_finalize.md R172). -/
def zeroFill (buf : List Byte) (n : Nat) : List Byte :=
  memWrite buf buf.length (List.replicate (n - buf.length) 0x00)

/-- Hand BUF to the compressor and come back to PAD (42_finalize.md R172). -/
def seqPadCompress (c : Ctx) (buf : List Byte) (next : PadStep) (s : State) : State :=
  State.setActive { c with buf := buf }
    { s with phase := .compress, trans := { s.trans with pad := some next, ret := some .pad } }

/-- One step of PAD (42_finalize.md R172): the terminator, with a compression of its own when more than 56 bytes are in use; then the
zeros up to 56, the length field at BUF[56..64) and the last compression. -/
def seqPad (s : State) : Host.Outcome State Fault Refusal :=
  match s.trans.pad, s.activeCtx with
  | some .terminator, some c =>
    let buf := memWrite c.buf c.buf.length [0x80]
    if 56 < buf.length then .next (seqPadCompress c (zeroFill buf 64) .lengthField s)
    else .next (State.setActive { c with buf := buf } { s with trans := { s.trans with pad := some .lengthField } })
  | some .lengthField, some c =>
    .next (seqPadCompress c (memWrite (zeroFill c.buf 56) 56 (bytesBe64 (bitLength c.len))) .done s)
  | some .done, some _ => .next { s with phase := .encode, trans := { s.trans with pad := none } }
  | _, _ => .refused .noValue

/-- The end of ENCODE (42_finalize.md R172, 44_host_commands.md R211): DIGEST, HEX and DVALID are written in one step; FINALIZE
reinitializes the block's context, EVAL discards its private one. -/
def seqPublish (raw hex : List Byte) (s : State) : State :=
  match s.trans.op with
  | some .eval => (s.writeOutputs raw hex).finishCommand
  | _ => (s.writeOutputs raw hex).clearContext.finishCommand

/-- One step of ENCODE (43_digest_encoding.md R199): latch H[0]; eight times `hexchar(S[31:28])` and S <- rotl(S, 4); then the word's
four raw bytes, and the next word or the end. -/
def seqEncode (s : State) : Host.Outcome State Fault Refusal :=
  match s.trans.enc, s.activeCtx with
  | none, some c =>
    .next { s with
      trans := { s.trans with enc := some { shift := hashWord c.h 0, j := 0, m := 0, hexDone := [], rawDone := [] } } }
  | some e, some c =>
    if e.m < 8 then
      .next { s with
        trans := { s.trans with
          enc := some { e with
            hexDone := e.hexDone ++ [hexChar (e.shift.extractLsb' 28 4)], shift := rotl e.shift 4, m := e.m + 1 } } }
    else
      let raw := e.rawDone ++ bytesBe32 (hashWord c.h e.j)
      if e.j < 4 then
        .next { s with
          trans := { s.trans with
            enc := some { e with rawDone := raw, shift := hashWord c.h (e.j + 1), j := e.j + 1, m := 0 } } }
      else .next (seqPublish raw e.hexDone s)
  | _, none => .refused .noValue

/-- One step of the reference sequencer. Reset comes before everything (60_exceptions.md R236); HALT is left by reset only (R233). -/
def tick (s : State) : Host.Outcome State Fault Refusal :=
  if s.rst then .next s.applyReset
  else
    match s.phase with
    | .idle => seqIdle s
    | .cntLo => seqCntLo s
    | .cntHi => seqCntHi s
    | .absorb => seqAbsorb s
    | .compress => seqCompress s
    | .pad => seqPad s
    | .encode => seqEncode s
    | .halt w => .fault (.illegalCommand w)

/-- n steps of the reference sequencer, stopping at the first fault or refusal. -/
def tickN : Nat → State → Host.Outcome State Fault Refusal
  | 0, s => .next s
  | n + 1, s =>
    match tick s with
    | .next t => tickN n t
    | .fault r => .fault r
    | .refused r => .refused r

end Sys2Proof.Machine
end

