-- ==== Sys2Proof/Machine/Fetch.lean ====
section
/-! DEFINITION. What a step does next. A command whose whole transaction the host offers is one atomic step (spec/20_memory.md R51);
everything else, a wait, an illegal word, an incomplete transaction, reset, is a step of the sequencer (log entry 1). -/

namespace Sys2Proof.Machine

/-- What the next step is. -/
inductive Fetched where
  /-- Run the command i from the state whose ports its transaction has left. -/
  | run (i : Instr) (s : State)
  /-- One step of the reference sequencer. -/
  | sequence
deriving DecidableEq, Repr

/-- Take a whole transaction off the ports, in IDLE and out of reset (20_memory.md R51, 30_encoding.md R72). -/
def fetch (s : State) : Fetched :=
  if s.rst then .sequence
  else
    match s.phase with
    | .idle =>
      match decode s.cmdIn s.payIn with
      | .complete i ws bs => .run i { s with cmdIn := ws, payIn := bs }
      | _ => .sequence
    | _ => .sequence

/-- The state with a table instruction at the head of the ports, where the next command word, COUNT words and payload bytes are
taken from (30_encoding.md R72). -/
def placeTransfers (s : State) (nbits w : Nat) : State :=
  { s with cmdIn := (tableTransfers nbits w).1 ++ s.cmdIn, payIn := (tableTransfers nbits w).2 ++ s.payIn }

end Sys2Proof.Machine
end

