-- ==== Sys2Proof/Machine/Step.lean ====
section
/-! DEFINITION. One step of the machine (spec/20_memory.md R51): a whole command, or a step of the sequencer. -/

namespace Sys2Proof.Machine

/-- One step: run the transaction the ports offer, or else one step of the reference sequencer. -/
def step (s : State) : Host.Outcome State Fault Refusal :=
  match fetch s with
  | .run i t => exec i t
  | .sequence => tick s

/-- The state with a table instruction where the next step takes it from: the head of the ports (log entry 7). -/
def State.withFetchWord (s : State) (nbits w : Nat) : State := placeTransfers s nbits w

end Sys2Proof.Machine
end

