-- ==== Sys2Proof/Machine/Assembler.lean ====
section
/-! DEFINITION. The assembler's notation (spec/30_encoding.md R81-R84): from the characters of a source line to the commands it stands
for. Notation only; no command's meaning rests on it. Where R81 and R82 leave a spelling open, see log entry 9. -/

namespace Sys2Proof.Machine

/-- The bytes of a payload term (R82). -/
def termBytes : PayloadTerm → List Byte
  | .text chars => chars.map fun c => BitVec.ofNat 8 c.toNat
  | .hexBytes bytes => bytes
  | .repeated b n => List.replicate n b

/-- The bytes of terms joined by `++` (R81). -/
def operandBytes : List PayloadTerm → List Byte
  | [] => []
  | t :: ts => termBytes t ++ operandBytes ts

/-- The commands of a source line: a missing operand is the empty payload, and DIGEST is CLEAR then FINALIZE (R83). -/
def expandLine : SourceLine → List Instr
  | .clear => [.clear]
  | .update o => [.update (operandBytes (o.getD []))]
  | .finalize o => [.finalize (operandBytes (o.getD []))]
  | .eval o => [.eval (operandBytes (o.getD []))]
  | .digest o => [.clear, .finalize (operandBytes o)]

/-- Drop blanks. -/
def skipBlanks : List Char → List Char
  | ' ' :: cs => skipBlanks cs
  | '\t' :: cs => skipBlanks cs
  | cs => cs

/-- Nothing but blanks or a comment is left on the line (R81). -/
def lineEnds (cs : List Char) : Bool :=
  match skipBlanks cs with
  | [] => true
  | ';' :: _ => true
  | _ => false

/-- A hex digit's value. -/
def hexDigit (c : Char) : Option Nat :=
  if 0x30 ≤ c.toNat ∧ c.toNat ≤ 0x39 then some (c.toNat - 0x30)
  else if 0x61 ≤ c.toNat ∧ c.toNat ≤ 0x66 then some (c.toNat - 0x61 + 10)
  else if 0x41 ≤ c.toNat ∧ c.toNat ≤ 0x46 then some (c.toNat - 0x41 + 10)
  else none

/-- Two hex digits as a byte (R82). -/
def hexByte (c d : Char) : Option Byte := do
  let hi ← hexDigit c
  let lo ← hexDigit d
  pure (BitVec.ofNat 8 (16 * hi + lo))

/-- The characters of a text term after its opening quote: a backslash escapes a quote or a backslash and nothing else; ASCII only
(R82), control characters included (log entry 9). -/
def readText : List Char → Option (List Char × List Char)
  | [] => none
  | c :: cs =>
    if c.toNat = 0x22 then some ([], cs)
    else if c.toNat = 0x5c then
      match cs with
      | [] => none
      | d :: ds =>
        if d.toNat = 0x22 ∨ d.toNat = 0x5c then (readText ds).map fun r => (d :: r.1, r.2) else none
    else if c.toNat < 128 then (readText cs).map fun r => (c :: r.1, r.2)
    else none

/-- The bytes of a hex term after its opening quote: two digits each, with optional spaces (R82). R82 does not say where the spaces may
stand; the model takes any number of them before the first byte, between bytes and after the last, none between the two digits of a byte,
and no tab (DESIGN CHOICE, safe, log entry 9). -/
def readHex : List Char → Option (List Byte × List Char)
  | [] => none
  | c :: cs =>
    if c.toNat = 0x22 then some ([], cs)
    else if c.toNat = 0x20 then readHex cs
    else
      match cs with
      | [] => none
      | d :: ds =>
        match hexByte c d with
        | some b => (readHex ds).map fun r => (b :: r.1, r.2)
        | none => none

/-- Decimal digits after those already read (R82). -/
def readDecimal (acc : Nat) : List Char → Nat × List Char
  | [] => (acc, [])
  | c :: cs =>
    if 0x30 ≤ c.toNat ∧ c.toNat ≤ 0x39 then readDecimal (10 * acc + (c.toNat - 0x30)) cs else (acc, c :: cs)

/-- One payload term (R82). -/
def readTerm : List Char → Option (PayloadTerm × List Char)
  | '0' :: 'x' :: c :: d :: '*' :: n :: cs =>
    match hexByte c d, hexDigit n with
    | some b, some k =>
      if k < 10 then some (.repeated b (readDecimal k cs).1, (readDecimal k cs).2) else none
    | _, _ => none
  | 'x' :: q :: cs => if q.toNat = 0x22 then (readHex cs).map fun r => (.hexBytes r.1, r.2) else none
  | q :: cs => if q.toNat = 0x22 then (readText cs).map fun r => (.text r.1, r.2) else none
  | [] => none

/-- One or more terms joined by `++` (R81), with or without blanks around it (log entry 9); `fuel` bounds their number. -/
def readTerms : Nat → List Char → Option (List PayloadTerm × List Char)
  | 0, _ => none
  | fuel + 1, cs =>
    match readTerm (skipBlanks cs) with
    | none => none
    | some (t, rest) =>
      match skipBlanks rest with
      | '+' :: '+' :: more => (readTerms fuel more).map fun r => (t :: r.1, r.2)
      | _ => some ([t], rest)

/-- The operand of a line: `none` if there is none, and no answer if it does not read (R81). -/
def readOperand (cs : List Char) : Option (Option (List PayloadTerm)) :=
  if lineEnds cs then some none
  else
    match readTerms cs.length cs with
    | some (ts, rest) => if lineEnds rest then some (some ts) else none
    | none => none

/-- A letter in lower case: a mnemonic is not case-sensitive (R81). -/
def lowerLetter (c : Char) : Nat := if 0x41 ≤ c.toNat ∧ c.toNat ≤ 0x5a then c.toNat + 0x20 else c.toNat

/-- The longest run of letters at the head of a line, in lower case: the mnemonic (log entry 9). -/
def readLetters : List Char → List Nat × List Char
  | [] => ([], [])
  | c :: cs =>
    if 0x61 ≤ lowerLetter c ∧ lowerLetter c ≤ 0x7a then ((lowerLetter c) :: (readLetters cs).1, (readLetters cs).2)
    else ([], c :: cs)

/-- The character codes of a mnemonic. -/
def codesOf (cs : List Char) : List Nat := cs.map Char.toNat

/-- A mnemonic with its operand (R81, R83): CLEAR takes none, DIGEST needs one. -/
def lineOf (mnemonic : List Nat) (operand : Option (List PayloadTerm)) : Option SourceLine :=
  if mnemonic = codesOf ['c', 'l', 'e', 'a', 'r'] then
    match operand with
    | none => some .clear
    | some _ => none
  else if mnemonic = codesOf ['u', 'p', 'd', 'a', 't', 'e'] then some (.update operand)
  else if mnemonic = codesOf ['f', 'i', 'n', 'a', 'l', 'i', 'z', 'e'] then some (.finalize operand)
  else if mnemonic = codesOf ['e', 'v', 'a', 'l'] then some (.eval operand)
  else if mnemonic = codesOf ['d', 'i', 'g', 'e', 's', 't'] then
    match operand with
    | none => none
    | some o => some (.digest o)
  else none

/-- A source line (R81): `some none` is an empty or comment line, `none` is no line of the notation. R81 does not say whether a blank
must stand between mnemonic and operand or may stand before the mnemonic; the model asks for none and allows both (DESIGN CHOICE, safe,
log entry 9), the mnemonic being the longest run of letters. -/
def parseLine (cs : List Char) : Option (Option SourceLine) :=
  if lineEnds cs then some none
  else
    let letters := readLetters (skipBlanks cs)
    match readOperand letters.2 with
    | none => none
    | some operand =>
      match lineOf letters.1 operand with
      | some l => some (some l)
      | none => none

/-- The port transfers of a source line (R84). -/
def assembleLine (l : SourceLine) : List Word × List Byte := assemble (expandLine l)

end Sys2Proof.Machine
end

