-- ==== Sys2Proof/Machine/Ports.lean ====
section
/-! DEFINITION. The ports of a block as the host sees them (spec/30_encoding.md R70, R71, R85-R87; spec/10_state.md R38, R41): what the
host drives, the ready signals and the outputs. Reading an output has no side effect (spec/20_memory.md R57). -/

namespace Sys2Proof.Machine

/-- The host offers a word on the command port; the block takes words in the order offered (R70, 70_reset_and_hazards.md R266). -/
def State.offerWord (w : Word) (s : State) : State := { s with cmdIn := s.cmdIn ++ [w] }

/-- The host offers a byte on the payload port (R70, R76). -/
def State.offerByte (b : Byte) (s : State) : State := { s with payIn := s.payIn ++ [b] }

/-- The host drives the `rst` pin (R70). -/
def State.driveRst (v : Bool) (s : State) : State := { s with rst := v }

/-- `cmd_ready`: 1 when phase is IDLE, CNT_LO or CNT_HI (R70), and 0 while `rst = 1` (70_reset_and_hazards.md R260). -/
def State.cmdReady (s : State) : Bool :=
  !s.rst &&
    match s.phase with
    | .idle => true
    | .cntLo => true
    | .cntHi => true
    | _ => false

/-- `in_ready`: 1 only when phase is ABSORB with REM > 0 and the buffer can take a byte (R70), and 0 while `rst = 1`
(70_reset_and_hazards.md R260). -/
def State.inReady (s : State) : Bool :=
  !s.rst &&
    match s.phase, s.trans.rem, s.activeCtx with
    | .absorb, some r, some c => decide (r ≠ 0) && decide (c.buf.length < 64)
    | _, _, _ => false

/-- `status[31:0]` (R87). -/
def State.statusPort (s : State) : Word := statusWord s.status

/-- The `digest` bus (R85); while DVALID = 0 a read has no value and is refused (10_state.md R41). -/
def State.digestPort (s : State) : Except Refusal (BitVec 160) :=
  match s.status.dvalid, s.digest with
  | true, some raw => .ok (packBytes 160 raw)
  | _, _ => .error .noValue

/-- The `hex` bus (R86); while DVALID = 0 a read has no value and is refused (10_state.md R41). -/
def State.hexPort (s : State) : Except Refusal (BitVec 320) :=
  match s.status.dvalid, s.hex with
  | true, some chars => .ok (packBytes 320 chars)
  | _, _ => .error .noValue

end Sys2Proof.Machine
end

