-- ==== Sys2Proof/Machine/System.lean ====
section
/-! DEFINITION. A system of independent blocks (spec/60_exceptions.md R243, spec/00_scope.md R6): each has its own ports and state and
one host that drives it (spec/70_reset_and_hazards.md R268). N_INST is the number of blocks, any number. -/

namespace Sys2Proof.Machine

/-- A block in a system, and the number of the one host that drives it. -/
structure Slot where
  host : Nat
  block : State
deriving DecidableEq, Repr

/-- The blocks of a system. -/
abbrev System := List Slot

/-- A system right after reset, one block for each host listed: `N_INST` is the list's length (60_exceptions.md R243). -/
def systemReset (hosts : List Nat) : System := hosts.map fun h => { host := h, block := State.reset }

/-- One step of block k; the other blocks do not move (60_exceptions.md R243). -/
def systemStep (k : Nat) (sys : System) : Host.Outcome System Fault Refusal :=
  match sys[k]? with
  | none => .refused .noSuchBlock
  | some slot =>
    match step slot.block with
    | .next t => .next (sys.set k { slot with block := t })
    | .fault r => .fault r
    | .refused r => .refused r

/-- An action of a host on the ports of block k. Another host than the one that drives the block is refused (R268, ID13). -/
def systemDrive (host k : Nat) (act : State → State) (sys : System) : Host.Outcome System Fault Refusal :=
  match sys[k]? with
  | none => .refused .noSuchBlock
  | some slot =>
    if slot.host = host then .next (sys.set k { slot with block := act slot.block }) else .refused .secondHost

/-- A host offers a word to block k (30_encoding.md R70). -/
def systemOfferWord (host k : Nat) (w : Word) (sys : System) : Host.Outcome System Fault Refusal :=
  systemDrive host k (State.offerWord w) sys

/-- A host offers a payload byte to block k (30_encoding.md R70). -/
def systemOfferByte (host k : Nat) (b : Byte) (sys : System) : Host.Outcome System Fault Refusal :=
  systemDrive host k (State.offerByte b) sys

/-- A host drives the `rst` pin of block k (30_encoding.md R70). -/
def systemDriveRst (host k : Nat) (v : Bool) (sys : System) : Host.Outcome System Fault Refusal :=
  systemDrive host k (State.driveRst v) sys

end Sys2Proof.Machine
end

