-- ==== Sys2Proof/Machine/Timing.lean ====
section
/-! DEFINITION. The number of compressions a command runs, the one timing-relevant count the rules fix
(spec/70_reset_and_hazards.md R271, spec/41_update.md R146, spec/42_finalize.md R171). No claim rests on a cycle count. -/

namespace Sys2Proof.Machine

/-- The 64-byte blocks of a byte sequence, in order, without an incomplete one at the end. -/
def splitBlocks : Nat → List Byte → List (List Byte)
  | 0, _ => []
  | n + 1, bytes => bytes.take 64 :: splitBlocks n (bytes.drop 64)

/-- All the 64-byte blocks of a byte sequence. -/
def wholeBlocks (bytes : List Byte) : List (List Byte) := splitBlocks (bytes.length / 64) bytes

/-- The blocks a command compresses, in order, from a context (41_update.md R146, 42_finalize.md R166, 44_host_commands.md R211). -/
def blocksOf (i : Instr) (c : Ctx) : List (List Byte) :=
  match i with
  | .clear => []
  | .update p => wholeBlocks (c.buf ++ p)
  | .finalize p => wholeBlocks (paddedMessage (c.buf ++ p) (c.len + payloadCount p))
  | .eval p => wholeBlocks (paddedMessage p (payloadCount p))

/-- The number of compressions of a command (70_reset_and_hazards.md R271). -/
def compressions (i : Instr) (c : Ctx) : Nat := (blocksOf i c).length

end Sys2Proof.Machine
end

