-- ==== Sys2Proof/Safety.lean ====
section
/-! DEFINITION. What counts as a safe state and a completed run (spec/60_exceptions.md R234, spec/70_reset_and_hazards.md R269), and the
invariant of the machine that the claims use (spec/10_state.md R24-R36). -/

namespace Sys2Proof.Machine

/-- A command is in progress: every phase but IDLE and HALT (10_state.md R31, R33). -/
def Phase.running : Phase → Bool
  | .idle => false
  | .halt _ => false
  | _ => true

/-- Phase HALT. -/
def Phase.halted : Phase → Bool
  | .halt _ => true
  | _ => false

/-- The block is out of reset and in IDLE, so it accepts a command word (30_encoding.md R70, 70_reset_and_hazards.md R260). -/
def State.Ready (s : State) : Prop := s.rst = false ∧ s.phase = .idle

/-- A run has ended well: the block is in IDLE, so no command is unfinished (70_reset_and_hazards.md R269) and no illegal word was
taken (60_exceptions.md R234). -/
def State.successfulEnd (s : State) : Prop := s.phase = .idle ∧ s.status.err = false

/-- The block waits for the host for ever if the host offers nothing more (70_reset_and_hazards.md R269). -/
def State.waiting (s : State) : Prop := s.phase.running = true ∧ step s = .next s

/-- The commands of a list run one after the other, each as one atomic step. -/
def execAll : List Instr → State → Host.Outcome State Fault Refusal
  | [], s => .next s
  | i :: is, s =>
    match exec i s with
    | .next t => execAll is t
    | .fault r => .fault r
    | .refused r => .refused r

/-- A context between commands: BUFLEN < 64 (10_state.md R25), and LEN mod 64 = BUFLEN (42_finalize.md R174). -/
def Ctx.Settled (c : Ctx) : Prop := c.buf.length < 64 ∧ c.len.toNat % 64 = c.buf.length

/-- A context with r payload bytes of the running command still to come: the bytes absorbed so far fill whole blocks and BUF
(42_finalize.md R174 with 10_state.md R35). -/
def Ctx.Absorbing (c : Ctx) (r : DWord) : Prop := (c.len - r).toNat % 64 = c.buf.length % 64

/-- STATUS agrees with the phase (10_state.md R31, R34). -/
def State.StatusAgrees (s : State) : Prop :=
  s.status.busy = s.phase.running ∧ s.status.err = s.phase.halted

/-- The outputs hold a digest and its hex spelling when DVALID = 1 and no value otherwise (10_state.md R28, R29, R32, R41;
43_digest_encoding.md R196, R197). -/
def State.OutputsAgree (s : State) : Prop :=
  match s.status.dvalid, s.digest, s.hex with
  | true, some raw, some chars => raw.length = 20 ∧ chars = hexOfBytes raw
  | false, none, none => True
  | _, _, _ => False

/-- The registers of a command with a payload, once accepted (10_state.md R32, R36): its OP, EVAL's private context, and DVALID. -/
def State.Running (s : State) : Prop :=
  (s.trans.op = some .update ∧ s.trans.priv = none) ∨
    (s.trans.op = some .finalize ∧ s.trans.priv = none ∧ s.status.dvalid = false) ∨
    (s.trans.op = some .eval ∧ s.trans.priv.isSome ∧ s.status.dvalid = false ∧ s.ctx.Settled)

/-- The command writes a digest (10_state.md R28). -/
def State.Digesting (s : State) : Prop := s.trans.op = some .finalize ∨ s.trans.op = some .eval

/-- No compression is in progress (10_state.md R26, R27). -/
def Transient.NoCompression (t : Transient) : Prop :=
  t.work = none ∧ t.sched = none ∧ t.round = none ∧ t.ret = none

/-- The compression's registers (40_compression.md R112): before step 0, before the round t, or before the final addition. -/
def Transient.Compressing (t : Transient) : Prop :=
  (t.work = none ∧ t.sched = none ∧ t.round = none) ∨
    (t.work.isSome ∧ ∃ w k, t.sched = some w ∧ t.round = some k ∧ k < 80 ∧ w.length = max 16 k) ∨
    (t.work.isSome ∧ ∃ w, t.sched = some w ∧ t.round = none ∧ w.length = 80)

/-- The serializer has produced the first j words' bytes and 8j + m characters (43_digest_encoding.md R199). -/
def Encoder.Agrees (e : Encoder) (h : Hash) : Prop :=
  e.j ≤ 4 ∧ e.m ≤ 8 ∧ e.shift = rotl (hashWord h e.j) (4 * e.m) ∧
    e.rawDone = (serializeRaw h).take (4 * e.j) ∧ e.hexDone = (serializeHex h).take (8 * e.j + e.m)

/-- The transient registers and the active context, phase by phase (10_state.md R25-R36). -/
def State.PhaseAgrees (s : State) : Prop :=
  match s.phase with
  | .idle => s.ctx.Settled ∧ s.trans = Transient.empty
  | .halt _ => s.ctx.Settled ∧ s.trans = Transient.empty
  | .cntLo =>
    s.Running ∧ s.trans.NoCompression ∧ s.trans.cntLo = none ∧ s.trans.rem = none ∧ s.trans.pad = none ∧
      s.trans.enc = none ∧ ∃ c, s.activeCtx = some c ∧ c.Settled
  | .cntHi =>
    s.Running ∧ s.trans.NoCompression ∧ s.trans.cntLo.isSome ∧ s.trans.rem = none ∧ s.trans.pad = none ∧
      s.trans.enc = none ∧ ∃ c, s.activeCtx = some c ∧ c.Settled
  | .absorb =>
    s.Running ∧ s.trans.NoCompression ∧ s.trans.cntLo = none ∧ s.trans.pad = none ∧ s.trans.enc = none ∧
      ∃ c r, s.activeCtx = some c ∧ s.trans.rem = some r ∧ c.buf.length < 64 ∧ c.Absorbing r
  | .compress =>
    s.Running ∧ s.trans.Compressing ∧ s.trans.cntLo = none ∧ s.trans.enc = none ∧
      ∃ c r, s.activeCtx = some c ∧ s.trans.rem = some r ∧ c.buf.length = 64 ∧
        ((s.trans.ret = some .absorb ∧ s.trans.pad = none ∧ c.Absorbing r) ∨
          (s.trans.ret = some .pad ∧ s.Digesting ∧ r = 0 ∧
            (s.trans.pad = some .lengthField ∨ s.trans.pad = some .done)))
  | .pad =>
    s.Running ∧ s.Digesting ∧ s.trans.NoCompression ∧ s.trans.cntLo = none ∧ s.trans.enc = none ∧
      s.trans.rem = some 0 ∧
      ∃ c, s.activeCtx = some c ∧
        ((s.trans.pad = some .terminator ∧ c.Settled) ∨
          (s.trans.pad = some .lengthField ∧ c.buf.length ≤ 56) ∨
          (s.trans.pad = some .done ∧ c.buf = []))
  | .encode =>
    s.Running ∧ s.Digesting ∧ s.trans.NoCompression ∧ s.trans.cntLo = none ∧ s.trans.pad = none ∧
      s.trans.rem = some 0 ∧
      ∃ c, s.activeCtx = some c ∧ (∀ e, s.trans.enc = some e → e.Agrees c.h)

/-- The invariant of the machine: what every state of a run from reset meets, and every step keeps. -/
def State.Inv (s : State) : Prop := s.StatusAgrees ∧ s.OutputsAgree ∧ s.PhaseAgrees

/-- The host sees the same on the output ports and the ready signals of two states (10_state.md R38, 60_exceptions.md R241). -/
def State.SameOutputs (s t : State) : Prop :=
  s.statusPort = t.statusPort ∧ s.digestPort = t.digestPort ∧ s.hexPort = t.hexPort ∧ s.cmdReady = t.cmdReady ∧
    s.inReady = t.inReady

end Sys2Proof.Machine
end

