-- ==== Sys2Proof/Certificates/Slice0/Obligations.lean ====
section
/-! DEFINITION. The statements about SHA1-CORE, from the numbered rules of spec/. `s.Ready` says that `rst` is 0 and the phase is IDLE,
when the block accepts a command word (spec/30_encoding.md R70). -/

open Sys2Proof Sys2Proof.Machine

/-! ### Reset -/

/-- spec/10_state.md R40, R22: the value after reset of every piece of state. -/
def Obligations.ResetLeavesTheStatedValues : Prop :=
  State.reset.ctx.h = { h0 := 0x67452301, h1 := 0xefcdab89, h2 := 0x98badcfe, h3 := 0x10325476, h4 := 0xc3d2e1f0 } ∧
    State.reset.ctx.len = 0 ∧ State.reset.ctx.buf = [] ∧ State.reset.digest = none ∧ State.reset.hex = none ∧
    State.reset.statusPort = 0 ∧ State.reset.status.busy = false ∧ State.reset.status.dvalid = false ∧
    State.reset.status.err = false ∧ State.reset.phase = .idle ∧ State.reset.trans.work = none ∧
    State.reset.trans.sched = none ∧ State.reset.trans.round = none ∧ State.reset.trans.rem = none ∧
    State.reset.trans.priv = none

/-- The invariant holds right after reset (spec/10_state.md R25, R40). The transient registers beyond the spec's are the model's (log
entry 4). -/
def Obligations.ResetMeetsTheInvariant : Prop := State.reset.Inv

/-- spec/70_reset_and_hazards.md R260, R261: while `rst = 1` the block takes no transfer and a step sets every piece of state to its
reset value, whatever was in progress; when `rst` returns to 0 the block is in IDLE and takes the next command word, but no byte. -/
def Obligations.ResetAbortsEverything : Prop :=
  ∀ s : State, s.rst = true →
    s.cmdReady = false ∧ s.inReady = false ∧
      ∃ t, step s = .next t ∧ t = { State.reset with rst := true, cmdIn := s.cmdIn, payIn := s.payIn } ∧
        (t.driveRst false).Ready ∧ (t.driveRst false).cmdReady = true ∧ (t.driveRst false).inReady = false

/-! ### Encoding -/

/-- Words and bytes written out from spec/30_encoding.md R73, R74, R84 (spec/95_test_vectors.md V30-1, V30-2, V30-3) decode to the
instructions they stand for. -/
def Obligations.HandWrittenTransfersDecode : Prop :=
  decode [0x00000001] [] = .complete .clear [] [] ∧
    decode [0x00000002, 0x00000003, 0x00000000] [0x61, 0x62, 0x63] = .complete (.update [0x61, 0x62, 0x63]) [] [] ∧
    decode [0x00000003, 0x00000001, 0x00000000] [0xff] = .complete (.finalize [0xff]) [] [] ∧
    decode [0x00000004, 0x00000000, 0x00000000] [] = .complete (.eval []) [] [] ∧
    decode [0x00000000] [] = .illegal 0x00000000 [] ∧ decode [0x00000005] [] = .illegal 0x00000005 [] ∧
    decode [0x00000012] [] = .illegal 0x00000012 [] ∧ decode [0x80000001] [] = .illegal 0x80000001 []

/-- spec/30_encoding.md R74, R78, R73: of all 2^32 words exactly four are legal; a word is illegal exactly when OP is 0x0 or 0x5..0xF or
RSVD is not 0. -/
def Obligations.LegalCommandWordsAreExactlyFour : Prop :=
  (∀ w : Word, decodeOp w = some .clear ↔ w = 0x00000001) ∧ (∀ w : Word, decodeOp w = some .update ↔ w = 0x00000002) ∧
    (∀ w : Word, decodeOp w = some .finalize ↔ w = 0x00000003) ∧ (∀ w : Word, decodeOp w = some .eval ↔ w = 0x00000004) ∧
    ∀ w : Word, decodeOp w = none ↔
      (w.extractLsb' 0 4 = 0x0#4 ∨ 5 ≤ (w.extractLsb' 0 4).toNat) ∨ w.extractLsb' 4 28 ≠ 0#28

/-- spec/30_encoding.md R75: COUNT is COUNT_HI then COUNT_LO as one 64-bit number, and after the word of UPDATE, FINALIZE or EVAL every
pair of words is such a count, whatever its value: a transaction with its COUNT bytes offered decodes, and none is illegal. -/
def Obligations.EveryCountPairIsACount : Prop :=
  (∀ lo hi : Word, (countOf lo hi).toNat = hi.toNat * 2 ^ 32 + lo.toNat) ∧
    ∀ (op : Op) (lo hi : Word) (ws : List Word) (p bs : List Byte), op ≠ .clear →
      p.length = hi.toNat * 2 ^ 32 + lo.toNat →
      ∃ i : Instr, i.op = op ∧ i.payload = p ∧ decode (op.word :: lo :: hi :: ws) (p ++ bs) = .complete i ws bs

/-- spec/30_encoding.md R72, R77, R84: decoding the transfers of a well-formed instruction gives it back, with all that follows it on
both ports. -/
def Obligations.DecodeAfterEncode : Prop :=
  ∀ (i : Instr) (ws : List Word) (bs : List Byte), i.WellFormed →
    decode ((encode i).1 ++ ws) ((encode i).2 ++ bs) = .complete i ws bs

/-- spec/30_encoding.md R72-R78: each transaction has one spelling. What the decoder reads is well formed, and encoding it gives the
transfers back. -/
def Obligations.EncodeAfterDecode : Prop :=
  ∀ (ws ws' : List Word) (bs bs' : List Byte) (i : Instr), decode ws bs = .complete i ws' bs' →
    i.WellFormed ∧ ws = (encode i).1 ++ ws' ∧ bs = (encode i).2 ++ bs'

/-- spec/30_encoding.md R83: the pseudo-commands and their expansions. -/
def Obligations.PseudoCommandsExpand : Prop :=
  expandLine (.update none) = expandLine (.update (some [.hexBytes []])) ∧
    expandLine (.update none) = [.update []] ∧
    expandLine (.finalize none) = expandLine (.finalize (some [.hexBytes []])) ∧
    expandLine (.finalize none) = [.finalize []] ∧
    expandLine (.eval none) = expandLine (.eval (some [.hexBytes []])) ∧ expandLine (.eval none) = [.eval []] ∧
    ∀ p : List PayloadTerm, expandLine (.digest p) = expandLine .clear ++ expandLine (.finalize (some p))

/-! ### The step -/

/-- spec/20_memory.md R51, spec/30_encoding.md R72: where the ports offer a whole transaction, a step takes it off them and runs its
instruction. -/
def Obligations.StepRunsTheDecodedInstruction : Prop :=
  ∀ (s : State) (i : Instr) (ws : List Word) (bs : List Byte), s.Ready → decode s.cmdIn s.payIn = .complete i ws bs →
    step s = exec i { s with cmdIn := ws, payIn := bs }

/-- Where no whole transaction is offered, a step is one step of the reference sequencer (the model's choice, log entry 1), and where the
host offers nothing in IDLE the block waits (spec/30_encoding.md R71). -/
def Obligations.StepOtherwiseSequences : Prop :=
  (∀ s : State, (¬ s.Ready ∨ ∀ i ws bs, decode s.cmdIn s.payIn ≠ .complete i ws bs) → step s = tick s) ∧
    ∀ s : State, s.Ready → s.cmdIn = [] → step s = .next s

/-- spec/60_exceptions.md R230, R233: no step is refused, and only HALT faults: from every state of the invariant a step answers a next
state, or the block is in HALT and the step is the sticky fault of the word that stopped it. That the illegal word's own step is a next
state, and HALT keeps the word, is the model's reading (log entry 3). -/
def Obligations.OnlyHaltFaults : Prop :=
  ∀ s : State, s.Inv →
    (∃ t, step s = .next t) ∨ ∃ w, s.phase = .halt w ∧ s.rst = false ∧ step s = .fault (.illegalCommand w)

/-- Every step keeps the invariant of the machine: STATUS agrees with the phase, the outputs hold a digest and its hex spelling exactly
while DVALID = 1, BUFLEN < 64 and LEN mod 64 = BUFLEN between commands, and the transient registers hold values only where the running
command uses them (spec/10_state.md R24-R36, R41). It rests on the model's choices of log entries 1, 3, 4 and 6. -/
def Obligations.EveryStepKeepsTheInvariant : Prop := ∀ s t : State, s.Inv → step s = .next t → t.Inv

/-- spec/20_memory.md R59, spec/60_exceptions.md R230, spec/44_host_commands.md R212: a stream of well-formed commands offered in full is
taken to its end, one step a command, in order; the block is then in IDLE with nothing left on the ports. That a whole transaction is one
step is R51 with log entry 1. -/
def Obligations.LegalStreamCompletes : Prop :=
  ∀ (is : List Instr) (s : State), (∀ i ∈ is, i.WellFormed) → s.Ready → s.cmdIn = (assemble is).1 →
    s.payIn = (assemble is).2 →
    ∃ t : State, Host.Core.run Sys2Proof.core is.length s = .next t ∧
      execAll is { s with cmdIn := [], payIn := [] } = .next t ∧ t.Ready ∧ t.cmdIn = [] ∧ t.payIn = []

/-! ### The exception -/

/-- spec/60_exceptions.md R232: an illegal word taken in IDLE sets ERR and enters HALT, where both ready outputs are 0; nothing else of
the block changes, and no further word or byte is taken. That the illegal word's own step is a next state, and that HALT keeps the word,
is the model's choice (log entry 3). -/
def Obligations.IllegalWordEntersHalt : Prop :=
  ∀ (s : State) (w : Word) (ws : List Word), s.Ready → s.cmdIn = w :: ws → decodeOp w = none →
    ∃ t, step s = .next t ∧ t = { s with cmdIn := ws, status := { s.status with err := true }, phase := .halt w } ∧
      t.cmdReady = false ∧ t.inReady = false

/-- spec/60_exceptions.md R231: IllegalCommand is raised only by a word taken in IDLE; COUNT words and payload bytes never raise it. -/
def Obligations.HaltIsEnteredOnlyByAnIllegalWord : Prop :=
  ∀ (s t : State) (w : Word), step s = .next t → t.phase = .halt w →
    s.Ready ∧ decodeOp w = none ∧ ∃ ws, s.cmdIn = w :: ws ∧ t.cmdIn = ws

/-- spec/60_exceptions.md R233, R234: in HALT no command runs, no word or byte is taken, the state is no successful end and the step is
the sticky fault; reset, and it alone, leaves HALT, with ERR 0 and every reset value. What exec answers in HALT is the model's choice (log
entry 10), and so is the word HALT keeps for the fault (log entry 3). -/
def Obligations.HaltIsLeftOnlyByReset : Prop :=
  ∀ (s : State) (w : Word), s.phase = .halt w →
    ¬ s.successfulEnd ∧
    (s.rst = false → step s = .fault (.illegalCommand w) ∧ (∀ i, exec i s = .fault (.illegalCommand w)) ∧
      s.cmdReady = false ∧ s.inReady = false) ∧
    (s.rst = true → ∃ t, step s = .next t ∧ t = { State.reset with rst := true, cmdIn := s.cmdIn, payIn := s.payIn } ∧
      t.phase = .idle ∧ t.status.err = false)

/-- spec/10_state.md R34: ERR is sticky; a step that clears it is reset. -/
def Obligations.OnlyResetClearsErr : Prop :=
  ∀ s t : State, step s = .next t → s.status.err = true → t.status.err = false → s.rst = true

/-! ### All commands: where they wait, and what none of them touches -/

/-- spec/70_reset_and_hazards.md R266: a command word offered while a command runs is held. No command acts then, and from the payload on
a step takes no word. What exec answers outside IDLE is the model's choice (log entry 10). -/
def Obligations.BusyBlockHoldsTheNextWord : Prop :=
  (∀ (i : Instr) (s : State), s.rst = false → s.phase.running = true → exec i s = .next s) ∧
    ∀ s t : State, s.rst = false →
      (s.phase = .absorb ∨ s.phase = .compress ∨ s.phase = .pad ∨ s.phase = .encode) →
      s.cmdReady = false ∧ (step s = .next t → t.cmdIn = s.cmdIn)

/-- The frame of CLEAR, UPDATE, FINALIZE and EVAL: none of them writes ERR, the phase between commands, `rst`, or what the host offers
beyond the transaction; BUSY ends as 0 or is untouched, and the transient registers end without value or are untouched (spec/10_state.md
R31, R33-R36). What exec answers outside IDLE is the model's choice (log entry 10). -/
def Obligations.CommandsLeaveErrPhaseAndPorts : Prop :=
  ∀ (i : Instr) (s t : State), s.rst = false → exec i s = .next t →
    t.status.err = s.status.err ∧ t.phase = s.phase ∧ t.rst = s.rst ∧ t.cmdIn = s.cmdIn ∧ t.payIn = s.payIn ∧
      (t.status.busy = false ∨ t.status.busy = s.status.busy) ∧ (t.trans = Transient.empty ∨ t.trans = s.trans)

/-- spec/10_state.md R32: DVALID becomes 0 when a FINALIZE or EVAL word is accepted and 1 when the command writes its outputs; CLEAR and
UPDATE leave it; reset sets it to 0. -/
def Obligations.DvalidFollowsFinalizeAndEval : Prop :=
  (∀ (s t : State) (ws : List Word), s.Ready → (s.cmdIn = 0x00000003 :: ws ∨ s.cmdIn = 0x00000004 :: ws) →
      tick s = .next t → t.status.dvalid = false ∧ t.status.busy = true) ∧
    (∀ (p : List Byte) (s : State), s.Ready → ∃ t u, exec (.finalize p) s = .next t ∧ t.status.dvalid = true ∧
      exec (.eval p) s = .next u ∧ u.status.dvalid = true) ∧
    (∀ (s t : State) (ws : List Word), s.Ready → (s.cmdIn = 0x00000001 :: ws ∨ s.cmdIn = 0x00000002 :: ws) →
      tick s = .next t → t.status.dvalid = s.status.dvalid) ∧
    (∀ (p : List Byte) (s : State), s.Ready → ∃ t u, exec .clear s = .next t ∧ t.status.dvalid = s.status.dvalid ∧
      exec (.update p) s = .next u ∧ u.status.dvalid = s.status.dvalid) ∧
    ∀ s : State, s.rst = true → ∃ t, step s = .next t ∧ t.status.dvalid = false

/-! ### CLEAR -/

/-- spec/44_host_commands.md R210: CLEAR in IDLE completes; H, LEN and BUF take their initial values, BUSY is 0 at its end, and every
other output and status bit is as before. -/
def Obligations.ClearResetsTheContext : Prop :=
  ∀ s : State, s.Ready →
    ∃ t, exec .clear s = .next t ∧
      t.ctx.h = { h0 := 0x67452301, h1 := 0xefcdab89, h2 := 0x98badcfe, h3 := 0x10325476, h4 := 0xc3d2e1f0 } ∧
      t.ctx.len = 0 ∧ t.ctx.buf = [] ∧ t.digest = s.digest ∧ t.hex = s.hex ∧ t.status = { s.status with busy := false } ∧
      t.phase = .idle

/-! ### UPDATE -/

/-- spec/41_update.md R141-R144: UPDATE in IDLE completes. LEN takes COUNT in modulo 2^64; a non-empty BUF is filled first, and if
64 bytes are not reached the command ends there; else the buffer's block and then every full block of the remaining payload are
compressed, and the 0..63 bytes left become BUF. -/
def Obligations.UpdateInThreeSteps : Prop :=
  ∀ (p : List Byte) (s : State), s.Ready → s.ctx.buf.length < 64 →
    ∃ t, exec (.update p) s = .next t ∧
      t.ctx.len.toNat = (s.ctx.len.toNat + p.length) % 2 ^ 64 ∧
      (s.ctx.buf = [] →
        t.ctx.h = (wholeBlocks p).foldl compress s.ctx.h ∧ t.ctx.buf = p.drop (64 * (p.length / 64))) ∧
      (s.ctx.buf ≠ [] →
        (s.ctx.buf.length + p.length < 64 → t.ctx.h = s.ctx.h ∧ t.ctx.buf = s.ctx.buf ++ p) ∧
        (64 ≤ s.ctx.buf.length + p.length →
          ∃ filler rest, p = filler ++ rest ∧ s.ctx.buf.length + filler.length = 64 ∧
            t.ctx.h = (wholeBlocks rest).foldl compress (compress s.ctx.h (s.ctx.buf ++ filler)) ∧
            t.ctx.buf = rest.drop (64 * (rest.length / 64)))) ∧
      t.ctx.buf.length < 64

/-- spec/41_update.md R146: UPDATE in IDLE completes, with the closed form of H, BUF and LEN, and (BUFLEN + COUNT) div 64 compressions.
The spec marks it "[derived: from rules R142-R144]". -/
def Obligations.UpdateClosedForm : Prop :=
  ∀ (p : List Byte) (s : State), s.Ready → s.ctx.buf.length < 64 →
    ∃ t, exec (.update p) s = .next t ∧
      t.ctx.h = (wholeBlocks (s.ctx.buf ++ p)).foldl compress s.ctx.h ∧
      t.ctx.buf = (s.ctx.buf ++ p).drop (64 * ((s.ctx.buf ++ p).length / 64)) ∧
      t.ctx.buf.length = (s.ctx.buf ++ p).length % 64 ∧
      t.ctx.len.toNat = (s.ctx.len.toNat + p.length) % 2 ^ 64 ∧
      (wholeBlocks (s.ctx.buf ++ p)).length = (s.ctx.buf.length + p.length) / 64

/-- The frame of CLEAR and UPDATE: DIGEST, HEX, DVALID and ERR are unchanged, and the digest and hex buses read as before
(spec/41_update.md R148, spec/44_host_commands.md R210). -/
def Obligations.ClearAndUpdateFrame : Prop :=
  ∀ (p : List Byte) (s t : State), s.rst = false → (exec .clear s = .next t ∨ exec (.update p) s = .next t) →
    t.digest = s.digest ∧ t.hex = s.hex ∧ t.status.dvalid = s.status.dvalid ∧ t.status.err = s.status.err ∧
      t.digestPort = s.digestPort ∧ t.hexPort = s.hexPort

/-- spec/41_update.md R142, spec/20_memory.md R50: a payload that does not fill the buffer is stored at BUF[BUFLEN..BUFLEN+COUNT) and
nowhere else: H is unchanged and every byte below BUFLEN reads as before. -/
def Obligations.ShortUpdateStoresOnlyAfterTheBuffer : Prop :=
  ∀ (p : List Byte) (s : State), s.Ready → s.ctx.buf.length + p.length < 64 →
    ∃ t, exec (.update p) s = .next t ∧ t.ctx.h = s.ctx.h ∧
      t.ctx.buf.length = s.ctx.buf.length + p.length ∧
      (∀ k < s.ctx.buf.length, memRead t.ctx.buf k 1 = memRead s.ctx.buf k 1) ∧
      ∀ k < p.length, memRead t.ctx.buf (s.ctx.buf.length + k) 1 = memRead p k 1

/-- spec/41_update.md R147: for any split of a byte sequence into pieces, UPDATE of each piece in turn leaves the same H, LEN and BUF as
UPDATE of the whole. The spec marks it "[derived: from rule R146, ...]". -/
def Obligations.StreamingEquivalence : Prop :=
  ∀ (pieces : List (List Byte)) (s : State), s.Ready → s.ctx.buf.length < 64 →
    ∃ t u, execAll (pieces.map Instr.update) s = .next t ∧ exec (.update pieces.flatten) s = .next u ∧ t.ctx = u.ctx

/-! ### FINALIZE -/

/-- spec/42_finalize.md R161, R163, R164, R166, R167: FINALIZE in IDLE completes. H is compressed over every block of BUF ++ p, the
terminator, pads - 1 zeros and the bit length; DIGEST and HEX are its two serializations, DVALID is 1, and the context is initial
again. -/
def Obligations.FinalizeWritesTheDigest : Prop :=
  ∀ (p : List Byte) (s : State), s.Ready →
    ∃ t pads padded, exec (.finalize p) s = .next t ∧
      1 ≤ pads ∧ pads ≤ 64 ∧ ((s.ctx.buf ++ p).length + pads) % 64 = 56 ∧
      padded = (s.ctx.buf ++ p) ++ [0x80] ++ List.replicate (pads - 1) 0x00 ++
        bytesBe64 (8 * (s.ctx.len + BitVec.ofNat 64 p.length)) ∧
      t.digest = some (serializeRaw ((wholeBlocks padded).foldl compress s.ctx.h)) ∧
      t.hex = some (serializeHex ((wholeBlocks padded).foldl compress s.ctx.h)) ∧
      t.ctx = Ctx.initial ∧ t.status = { busy := false, dvalid := true, err := s.status.err } ∧ t.phase = .idle

/-- spec/42_finalize.md R162: pads is 1..64 with n + pads = 56 modulo 64, in the rule's three cases. -/
def Obligations.PadCount : Prop :=
  ∀ n : Nat, 1 ≤ padsOf n ∧ padsOf n ≤ 64 ∧ (n + padsOf n) % 64 = 56 ∧
    (56 < n % 64 → padsOf n = 120 - n % 64) ∧ (n % 64 < 56 → padsOf n = 56 - n % 64) ∧ (n % 64 = 56 → padsOf n = 64)

/-- spec/42_finalize.md R163: after the tail come 0x80, `pads - 1` zero bytes and the 8 bytes of the length field, 9..72 bytes in all. -/
def Obligations.PaddingBytes : Prop :=
  ∀ (tail : List Byte) (len : DWord),
    paddedMessage tail len =
      tail ++ (0x80 :: (List.replicate (padsOf tail.length - 1) 0x00 ++ bytesBe64 (bitLength len))) ∧
    (paddedMessage tail len).length = tail.length + (padsOf tail.length + 8) ∧
    9 ≤ padsOf tail.length + 8 ∧ padsOf tail.length + 8 ≤ 72

/-- spec/42_finalize.md R164: the length field is 8 LEN modulo 2^64, that is LEN[60:0] followed by three zero bits, written most significant
byte first. -/
def Obligations.LengthFieldIsEightTimesLen : Prop :=
  ∀ len : DWord, (bitLength len).toNat = 8 * len.toNat % 2 ^ 64 ∧ bitLength len = len.extractLsb' 0 61 ++ 0b000#3 ∧
    ∀ k < 8, (bytesBe64 (bitLength len))[k]? = some ((bitLength len).extractLsb' (56 - 8 * k) 8)

/-- spec/42_finalize.md R165: the padded message is n + pads + 8 bytes, a multiple of 64. The spec marks it "[derived: from rules R162 and
R163]". -/
def Obligations.PaddedMessageIsWholeBlocks : Prop :=
  ∀ (tail : List Byte) (len : DWord),
    (paddedMessage tail len).length = tail.length + padsOf tail.length + 8 ∧ (paddedMessage tail len).length % 64 = 0

/-- spec/42_finalize.md R168: FINALIZE sets H to IV, LEN to 0 and BUF to empty after writing the outputs; the context equals the one CLEAR
leaves. The spec marks the last clause "[derived: from this rule and rule R210]". -/
def Obligations.FinalizeReinitializes : Prop :=
  ∀ (p : List Byte) (s : State), s.Ready →
    ∃ t u, exec (.finalize p) s = .next t ∧ exec .clear s = .next u ∧ t.ctx = u.ctx ∧ t.ctx.h = Config.iv ∧
      t.ctx.len = 0 ∧ t.ctx.buf = [] ∧ t.digest.isSome = true ∧ t.hex.isSome = true

/-- spec/42_finalize.md R170: FINALIZE p gives the same DIGEST, HEX and final context as UPDATE p followed by FINALIZE with no payload.
The spec marks it "[derived: from 41_update.md rule R146 and rules R161-R166]". -/
def Obligations.FinalChunkConvention : Prop :=
  ∀ (p : List Byte) (s : State), s.Ready → s.ctx.buf.length < 64 →
    ∃ t u v, exec (.finalize p) s = .next t ∧ exec (.update p) s = .next u ∧ exec (.finalize []) u = .next v ∧
      t.digest = v.digest ∧ t.hex = v.hex ∧ t.ctx = v.ctx

/-- spec/42_finalize.md R174: rem is LEN mod 64, with LEN taken after COUNT is added. The spec marks it "[derived: from 10_state.md rule
R25 and rules R141, R161]". -/
def Obligations.RemIsLenModulo64 : Prop :=
  ∀ (c : Ctx) (p : List Byte), c.Settled → (c.buf ++ p).length % 64 = (c.len + payloadCount p).toNat % 64

/-- spec/42_finalize.md R175: after any UPDATEs from the initial context, FINALIZE writes SHA1 of all their payloads and its own. The spec
marks it "[derived: from rules R147, R168 and R170]". -/
def Obligations.FinalizeOfAStreamIsSha1 : Prop :=
  ∀ (pieces : List (List Byte)) (p : List Byte) (s : State), s.Ready → s.ctx = Ctx.initial →
    ∃ t, execAll (pieces.map Instr.update ++ [.finalize p]) s = .next t ∧
      t.digest = some (sha1Raw (pieces.flatten ++ p)) ∧ t.hex = some (sha1Hex (pieces.flatten ++ p))

/-! ### EVAL -/

/-- spec/44_host_commands.md R211: EVAL in IDLE completes; DIGEST and HEX are SHA1 of the payload, DVALID is 1, and H, LEN and BUF, every
byte of it, are unchanged. -/
def Obligations.EvalHashesItsPayloadAlone : Prop :=
  ∀ (p : List Byte) (s : State), s.Ready →
    ∃ t, exec (.eval p) s = .next t ∧ t.digest = some (sha1Raw p) ∧ t.hex = some (sha1Hex p) ∧
      t.status = { busy := false, dvalid := true, err := s.status.err } ∧ t.ctx = s.ctx ∧ t.phase = .idle

/-- The frame of EVAL: H, LEN, BUF and ERR are unchanged (spec/44_host_commands.md R211). -/
def Obligations.EvalFrame : Prop :=
  ∀ (p : List Byte) (s t : State), s.rst = false → exec (.eval p) s = .next t →
    t.ctx.h = s.ctx.h ∧ t.ctx.len = s.ctx.len ∧ (∀ k : Nat, memRead t.ctx.buf k 1 = memRead s.ctx.buf k 1) ∧
      t.status.err = s.status.err

/-- spec/44_host_commands.md R211 (spec/95_test_vectors.md P3): an EVAL between any commands of a message leaves the message intact; once
it is finalized the machine is in the same state as if the EVAL had never run. -/
def Obligations.EvalDoesNotDisturbAMessage : Prop :=
  ∀ (xs ys : List Instr) (p q : List Byte) (s : State), s.Ready →
    ∃ t, execAll (xs ++ [.eval p] ++ ys ++ [.finalize q]) s = .next t ∧ execAll (xs ++ ys ++ [.finalize q]) s = .next t

/-- spec/70_reset_and_hazards.md R264: after CLEAR, and after any FINALIZE, the next message hashes as on a fresh engine. The spec marks
it "[derived: from rules R260, R210 and R168]". -/
def Obligations.IdempotentReset : Prop :=
  ∀ (q m : List Byte) (s : State), s.Ready →
    ∃ t u v, execAll [.clear, .finalize m] s = .next t ∧ execAll [.finalize q, .finalize m] s = .next u ∧
      exec (.finalize m) State.reset = .next v ∧ t.digest = v.digest ∧ u.digest = v.digest ∧ t.hex = v.hex ∧
      u.hex = v.hex

/-! ### Digest encoding and outputs -/

/-- spec/43_digest_encoding.md R190: byte 4j + k of the raw digest is bits 31-8k:24-8k of H[j]. -/
def Obligations.RawSerialization : Prop :=
  ∀ h : Hash, (serializeRaw h).length = 20 ∧
    ∀ j < 5, ∀ k < 4, (serializeRaw h)[4 * j + k]? = some ((hashWord h j).extractLsb' (24 - 8 * k) 8)

/-- spec/43_digest_encoding.md R191, R192: hexchar is 0x30 + v up to 9 and 0x61 + (v - 10) from 10; characters 2i and 2i + 1 of HEX are
those of byte i of DIGEST, high nibble first. -/
def Obligations.HexSpellsEachByte : Prop :=
  (∀ v : BitVec 4, (v.toNat ≤ 9 → (hexChar v).toNat = 0x30 + v.toNat) ∧
    (10 ≤ v.toNat → (hexChar v).toNat = 0x61 + (v.toNat - 10))) ∧
    ∀ (h : Hash) (i : Nat) (b : Byte), (serializeRaw h)[i]? = some b →
      (serializeHex h)[2 * i]? = some (hexChar (b.extractLsb' 4 4)) ∧
        (serializeHex h)[2 * i + 1]? = some (hexChar (b.extractLsb' 0 4))

/-- spec/43_digest_encoding.md R193: character 8j + m of HEX is hexchar of bits 31-4m:28-4m of H[j]. The spec marks it "[derived: from
rules R190 and R192]". -/
def Obligations.HexWordForm : Prop :=
  ∀ h : Hash, (serializeHex h).length = 40 ∧
    ∀ j < 5, ∀ m < 8, (serializeHex h)[8 * j + m]? = some (hexChar ((hashWord h j).extractLsb' (28 - 4 * m) 4))

/-- spec/43_digest_encoding.md R196: every FINALIZE and EVAL writes exactly 20 DIGEST bytes and 40 HEX characters. -/
def Obligations.DigestLengthsAreFixed : Prop :=
  ∀ (p : List Byte) (s : State), s.Ready →
    ∃ t u dt ht du hu, exec (.finalize p) s = .next t ∧ exec (.eval p) s = .next u ∧ t.digest = some dt ∧ t.hex = some ht ∧
      u.digest = some du ∧ u.hex = some hu ∧ dt.length = 20 ∧ ht.length = 40 ∧ du.length = 20 ∧ hu.length = 40

/-- spec/43_digest_encoding.md R197: decoding HEX two characters at a time gives DIGEST exactly, in every state of the invariant with a
valid digest. The spec marks it "[derived: from rule R192, ...]". -/
def Obligations.HexDecodesToDigest : Prop :=
  ∀ s : State, s.Inv → s.status.dvalid = true →
    ∃ raw chars, s.digest = some raw ∧ s.hex = some chars ∧ bytesOfHex chars = some raw

/-- spec/30_encoding.md R85: byte k of DIGEST is bits 159-8k:152-8k of the digest bus, which is H[0] to H[4] side by side and is spelled by
the 40 hex characters; without a valid digest the bus has no value. -/
def Obligations.DigestBusPacking : Prop :=
  (∀ (s : State) (h : Hash), s.status.dvalid = true → s.digest = some (serializeRaw h) →
      ∃ d, s.digestPort = .ok d ∧ d = h.h0 ++ h.h1 ++ h.h2 ++ h.h3 ++ h.h4 ∧
        (∀ k < 20, (serializeRaw h)[k]? = some (d.extractLsb' (152 - 8 * k) 8)) ∧
        ∀ k < 40, (serializeHex h)[k]? = some (hexChar (d.extractLsb' (156 - 4 * k) 4))) ∧
    ∀ s : State, s.status.dvalid = false → s.digestPort = .error .noValue

/-- spec/30_encoding.md R86: character k of HEX is bits 319-8k:312-8k of the hex bus; without a valid digest the bus has no value. -/
def Obligations.HexBusPacking : Prop :=
  (∀ (s : State) (chars : List Byte), s.status.dvalid = true → s.hex = some chars → chars.length = 40 →
      ∃ x, s.hexPort = .ok x ∧ ∀ k < 40, chars[k]? = some (x.extractLsb' (312 - 8 * k) 8)) ∧
    ∀ s : State, s.status.dvalid = false → s.hexPort = .error .noValue

/-- spec/30_encoding.md R87: bit 0 of the status bus is BUSY, bit 1 DVALID, bit 2 ERR, bits 31:3 are zero. -/
def Obligations.StatusBus : Prop :=
  ∀ s : State, s.statusPort.getLsbD 0 = s.status.busy ∧ s.statusPort.getLsbD 1 = s.status.dvalid ∧
    s.statusPort.getLsbD 2 = s.status.err ∧ s.statusPort.extractLsb' 3 29 = 0#29

/-- spec/10_state.md R38, spec/40_compression.md R113: the host cannot observe H, LEN or BUF. Two states that differ in the digest context
alone show the same outputs, and so do they after any commands without a FINALIZE. -/
def Obligations.ContextIsNotObservable : Prop :=
  ∀ (is : List Instr) (s : State) (c : Ctx), s.Ready → (∀ i ∈ is, i.op ≠ .finalize) →
    ∃ t u, execAll is s = .next t ∧ execAll is { s with ctx := c } = .next u ∧ t.SameOutputs u

/-! ### Compression -/

/-- spec/00_scope.md R8: `rotl(x, n)` moves bit i of the result from bit i - n modulo 32. -/
def Obligations.RotlRotatesLeft : Prop :=
  ∀ (x : Word) (n : Nat), 0 < n → n < 32 → ∀ i < 32, (rotl x n).getLsbD i = x.getLsbD ((i + 32 - n) % 32)

/-- spec/40_compression.md R104-R107: the mixing functions bit by bit, and which rounds use which. -/
def Obligations.MixingFunctionsBitByBit : Prop :=
  ∀ (x y z : Word) (i : Nat), i < 32 →
    (∀ t < 20, (mix t x y z).getLsbD i = if x.getLsbD i then y.getLsbD i else z.getLsbD i) ∧
    (∀ t, 20 ≤ t → t < 40 → (mix t x y z).getLsbD i = ((x.getLsbD i ^^ y.getLsbD i) ^^ z.getLsbD i)) ∧
    (∀ t, 40 ≤ t → t < 60 → (mix t x y z).getLsbD i =
      decide (2 ≤ (x.getLsbD i).toNat + (y.getLsbD i).toNat + (z.getLsbD i).toNat)) ∧
    ∀ t, 60 ≤ t → t < 80 → (mix t x y z).getLsbD i = ((x.getLsbD i ^^ y.getLsbD i) ^^ z.getLsbD i)

/-- spec/40_compression.md R101, R102, spec/20_memory.md R52: the message schedule has 80 words, the block's 16 big-endian words and then
the recurrence. Word j is the bytes blk[4j..4j+4) side by side, the first one in bits 31:24. -/
def Obligations.ScheduleRecurrence : Prop :=
  ∀ blk : List Byte, blk.length = 64 →
    (schedule blk).length = 80 ∧
    (∀ j < 16, (schedule blk).getD j 0 =
      blk.getD (4 * j) 0 ++ blk.getD (4 * j + 1) 0 ++ blk.getD (4 * j + 2) 0 ++ blk.getD (4 * j + 3) 0) ∧
    ∀ t, 16 ≤ t → t < 80 → (schedule blk).getD t 0 =
      rotl ((schedule blk).getD (t - 3) 0 ^^^ (schedule blk).getD (t - 8) 0 ^^^ (schedule blk).getD (t - 14) 0 ^^^
        (schedule blk).getD (t - 16) 0) 1

/-- spec/40_compression.md R108-R110, R103: for any sequence of schedule words and of working variables that follows R101, R102 and R109
from the load of R108, compress adds the variables after round 79 into the state words. -/
def Obligations.CompressionIsEightyRounds : Prop :=
  ∀ (h : Hash) (blk : List Byte) (w : Nat → Word) (v : Nat → Work), blk.length = 64 →
    (∀ j < 16, w j =
      blk.getD (4 * j) 0 ++ blk.getD (4 * j + 1) 0 ++ blk.getD (4 * j + 2) 0 ++ blk.getD (4 * j + 3) 0) →
    (∀ t, 16 ≤ t → t < 80 → w t = rotl (w (t - 3) ^^^ w (t - 8) ^^^ w (t - 14) ^^^ w (t - 16)) 1) →
    v 0 = { a := h.h0, b := h.h1, c := h.h2, d := h.h3, e := h.h4 } →
    (∀ t < 80, v (t + 1) =
      { a := rotl (v t).a 5 + mix t (v t).b (v t).c (v t).d + (v t).e +
          (if t < 20 then 0x5a827999 else if t < 40 then 0x6ed9eba1 else if t < 60 then 0x8f1bbcdc else 0xca62c1d6) + w t
        b := (v t).a
        c := rotl (v t).b 30
        d := (v t).c
        e := (v t).d }) →
    compress h blk =
      { h0 := h.h0 + (v 80).a, h1 := h.h1 + (v 80).b, h2 := h.h2 + (v 80).c, h3 := h.h3 + (v 80).d,
        h4 := h.h4 + (v 80).e }

/-- spec/40_compression.md R111: holding the schedule in a 16-entry circular store gives the same compression function. The spec marks it
"[derived: from rule R102, ...]". -/
def Obligations.SixteenWordWindowSuffices : Prop :=
  ∀ (h : Hash) (blk : List Byte), blk.length = 64 → compressWindow h blk = compress h blk

/-- spec/70_reset_and_hazards.md R271: the number of compressions of each command. -/
def Obligations.CompressionCounts : Prop :=
  ∀ (c : Ctx) (p : List Byte),
    compressions .clear c = 0 ∧ compressions (.update p) c = (c.buf.length + p.length) / 64 ∧
    compressions (.finalize p) c =
      (c.buf.length + p.length + padsOf (c.buf.length + p.length) + 8) / 64 ∧
    compressions (.eval p) c = (p.length + padsOf p.length + 8) / 64

/-! ### The reference sequencer -/

/-- spec/40_compression.md R112: from its first step on, the 82 steps of COMPRESS put `compress(H, BUF)` into H, empty BUF and return to
the phase that invoked it. The caller register and the absent registers before step 0 are the model's (log entry 4). -/
def Obligations.CompressPhaseComputesCompress : Prop :=
  ∀ (s : State) (c : Ctx) (r : Caller), s.rst = false → s.phase = .compress → s.activeCtx = some c → c.buf.length = 64 →
    s.trans.ret = some r → s.trans.work = none → s.trans.sched = none → s.trans.round = none →
    tickN 82 s = .next (State.setActive { c with h := compress c.h c.buf, buf := [] }
      { s with phase := r.phase, trans := { s.trans with ret := none } })

/-- spec/41_update.md R145, spec/42_finalize.md R172, spec/43_digest_encoding.md R199: the reference sequencer, one transfer or internal
step at a time, ends each whole transaction in the same state as the command's one atomic step. The spec marks R145 and R172 as derived;
which form a step takes is the model's choice (log entry 1). -/
def Obligations.SequencerRefinesEveryCommand : Prop :=
  ∀ (s : State) (i : Instr) (ws : List Word) (bs : List Byte), s.Ready → s.ctx.buf.length < 64 →
    decode s.cmdIn s.payIn = .complete i ws bs →
    ∃ n t, tickN n s = .next t ∧ exec i { s with cmdIn := ws, payIn := bs } = .next t

/-- spec/70_reset_and_hazards.md R269, spec/30_encoding.md R70, R71. In CNT_LO and CNT_HI cmd_ready is 1 and an offered word is taken. In
ABSORB with REM > 0 in_ready is 1: an offered byte is taken, appended to BUF and counted, and with none offered the block waits in the same
state, with BUSY = 1. With REM = 0 in_ready is 0 and no byte is taken, so no more than COUNT are. In every phase a step of the sequencer
takes a word exactly when cmd_ready is 1 and one is offered, and a byte exactly when in_ready is 1 and one is offered. That a wait is a step
to the same state is the model's choice (log entry 1). -/
def Obligations.UnfinishedPayloadWaits : Prop :=
  (∀ s : State, s.Inv → s.rst = false → s.phase = .cntLo ∨ s.phase = .cntHi →
      s.cmdReady = true ∧ ∀ w ws, s.cmdIn = w :: ws → ∃ t, step s = .next t ∧ t.cmdIn = ws ∧ t.payIn = s.payIn) ∧
    (∀ (s : State) (r : DWord), s.Inv → s.rst = false → s.phase = .absorb → s.trans.rem = some r → r ≠ 0 →
      s.inReady = true ∧
        (∀ b bs, s.payIn = b :: bs →
          ∃ c t, s.activeCtx = some c ∧ step s = .next t ∧ t.payIn = bs ∧ t.trans.rem = some (r - 1) ∧
            t.activeCtx = some { c with buf := c.buf ++ [b] } ∧ t.cmdIn = s.cmdIn) ∧
        (s.payIn = [] → step s = .next s ∧ s.status.busy = true ∧ s.waiting)) ∧
    (∀ s : State, s.rst = false → s.phase = .absorb → s.trans.rem = some 0 →
      s.inReady = false ∧ ∀ t, step s = .next t → t.payIn = s.payIn) ∧
    ∀ s t : State, s.Inv → tick s = .next t →
      t.cmdIn = (if s.cmdReady then s.cmdIn.tail else s.cmdIn) ∧
        t.payIn = (if s.inReady then s.payIn.tail else s.payIn)

/-! ### Systems of blocks -/

/-- spec/60_exceptions.md R243: a step of one block is that block's own step and moves no other block. -/
def Obligations.BlocksAreIndependent : Prop :=
  ∀ (k : Nat) (sys sys' : System), systemStep k sys = .next sys' →
    (∀ j, j ≠ k → sys'[j]? = sys[j]?) ∧
    ∃ slot t, sys[k]? = some slot ∧ step slot.block = .next t ∧ sys'[k]? = some { slot with block := t }

/-- spec/70_reset_and_hazards.md R268: a transfer of a second host on a block is refused. -/
def Obligations.SecondHostIsRefused : Prop :=
  ∀ (k host : Nat) (sys : System) (slot : Slot) (w : Word) (b : Byte) (v : Bool), sys[k]? = some slot → slot.host ≠ host →
    systemOfferWord host k w sys = .refused .secondHost ∧ systemOfferByte host k b sys = .refused .secondHost ∧
      systemDriveRst host k v sys = .refused .secondHost
end

