-- ==== Sys2Proof/Laws/State.lean ====
section
/-! SUPPORT. What each named update of the state does to each field, so that no later proof unfolds a record update. -/

namespace Sys2Proof.Machine

@[simp] theorem State.applyReset_ctx (s : State) : (s.applyReset).ctx = Ctx.initial := rfl
@[simp] theorem State.applyReset_digest (s : State) : (s.applyReset).digest = none := rfl
@[simp] theorem State.applyReset_hex (s : State) : (s.applyReset).hex = none := rfl
@[simp] theorem State.applyReset_status (s : State) : (s.applyReset).status = Status.cleared := rfl
@[simp] theorem State.applyReset_phase (s : State) : (s.applyReset).phase = .idle := rfl
@[simp] theorem State.applyReset_trans (s : State) : (s.applyReset).trans = Transient.empty := rfl
@[simp] theorem State.applyReset_rst (s : State) : (s.applyReset).rst = s.rst := rfl
@[simp] theorem State.applyReset_cmdIn (s : State) : (s.applyReset).cmdIn = s.cmdIn := rfl
@[simp] theorem State.applyReset_payIn (s : State) : (s.applyReset).payIn = s.payIn := rfl

@[simp] theorem State.raiseIllegal_ctx (w : Word) (s : State) : (s.raiseIllegal w).ctx = s.ctx := rfl
@[simp] theorem State.raiseIllegal_digest (w : Word) (s : State) : (s.raiseIllegal w).digest = s.digest := rfl
@[simp] theorem State.raiseIllegal_hex (w : Word) (s : State) : (s.raiseIllegal w).hex = s.hex := rfl
@[simp] theorem State.raiseIllegal_status (w : Word) (s : State) : (s.raiseIllegal w).status = statusError s.status := rfl
@[simp] theorem State.raiseIllegal_phase (w : Word) (s : State) : (s.raiseIllegal w).phase = .halt w := rfl
@[simp] theorem State.raiseIllegal_trans (w : Word) (s : State) : (s.raiseIllegal w).trans = s.trans := rfl
@[simp] theorem State.raiseIllegal_rst (w : Word) (s : State) : (s.raiseIllegal w).rst = s.rst := rfl
@[simp] theorem State.raiseIllegal_cmdIn (w : Word) (s : State) : (s.raiseIllegal w).cmdIn = s.cmdIn := rfl
@[simp] theorem State.raiseIllegal_payIn (w : Word) (s : State) : (s.raiseIllegal w).payIn = s.payIn := rfl

@[simp] theorem State.beginCommand_ctx (op : Op) (s : State) : (s.beginCommand op).ctx = s.ctx := rfl
@[simp] theorem State.beginCommand_digest (op : Op) (s : State) :
    (s.beginCommand op).digest = if producesDigest op then none else s.digest := rfl
@[simp] theorem State.beginCommand_hex (op : Op) (s : State) :
    (s.beginCommand op).hex = if producesDigest op then none else s.hex := rfl
@[simp] theorem State.beginCommand_status (op : Op) (s : State) : (s.beginCommand op).status = statusAccept op s.status := rfl
@[simp] theorem State.beginCommand_phase (op : Op) (s : State) : (s.beginCommand op).phase = .cntLo := rfl
@[simp] theorem State.beginCommand_trans (op : Op) (s : State) :
    (s.beginCommand op).trans = { Transient.empty with op := some op, priv := if op = .eval then some Ctx.initial else none } := rfl
@[simp] theorem State.beginCommand_rst (op : Op) (s : State) : (s.beginCommand op).rst = s.rst := rfl
@[simp] theorem State.beginCommand_cmdIn (op : Op) (s : State) : (s.beginCommand op).cmdIn = s.cmdIn := rfl
@[simp] theorem State.beginCommand_payIn (op : Op) (s : State) : (s.beginCommand op).payIn = s.payIn := rfl

@[simp] theorem State.finishCommand_ctx (s : State) : (s.finishCommand).ctx = s.ctx := rfl
@[simp] theorem State.finishCommand_digest (s : State) : (s.finishCommand).digest = s.digest := rfl
@[simp] theorem State.finishCommand_hex (s : State) : (s.finishCommand).hex = s.hex := rfl
@[simp] theorem State.finishCommand_status (s : State) : (s.finishCommand).status = statusDone s.status := rfl
@[simp] theorem State.finishCommand_phase (s : State) : (s.finishCommand).phase = .idle := rfl
@[simp] theorem State.finishCommand_trans (s : State) : (s.finishCommand).trans = Transient.empty := rfl
@[simp] theorem State.finishCommand_rst (s : State) : (s.finishCommand).rst = s.rst := rfl
@[simp] theorem State.finishCommand_cmdIn (s : State) : (s.finishCommand).cmdIn = s.cmdIn := rfl
@[simp] theorem State.finishCommand_payIn (s : State) : (s.finishCommand).payIn = s.payIn := rfl

@[simp] theorem State.clearContext_ctx (s : State) : (s.clearContext).ctx = Ctx.initial := rfl
@[simp] theorem State.clearContext_digest (s : State) : (s.clearContext).digest = s.digest := rfl
@[simp] theorem State.clearContext_hex (s : State) : (s.clearContext).hex = s.hex := rfl
@[simp] theorem State.clearContext_status (s : State) : (s.clearContext).status = s.status := rfl
@[simp] theorem State.clearContext_phase (s : State) : (s.clearContext).phase = s.phase := rfl
@[simp] theorem State.clearContext_trans (s : State) : (s.clearContext).trans = s.trans := rfl
@[simp] theorem State.clearContext_rst (s : State) : (s.clearContext).rst = s.rst := rfl
@[simp] theorem State.clearContext_cmdIn (s : State) : (s.clearContext).cmdIn = s.cmdIn := rfl
@[simp] theorem State.clearContext_payIn (s : State) : (s.clearContext).payIn = s.payIn := rfl

@[simp] theorem State.writeOutputs_ctx (raw hex : List Byte) (s : State) : (s.writeOutputs raw hex).ctx = s.ctx := rfl
@[simp] theorem State.writeOutputs_digest (raw hex : List Byte) (s : State) : (s.writeOutputs raw hex).digest = some raw := rfl
@[simp] theorem State.writeOutputs_hex (raw hex : List Byte) (s : State) : (s.writeOutputs raw hex).hex = some hex := rfl
@[simp] theorem State.writeOutputs_status (raw hex : List Byte) (s : State) : (s.writeOutputs raw hex).status = statusValid s.status := rfl
@[simp] theorem State.writeOutputs_phase (raw hex : List Byte) (s : State) : (s.writeOutputs raw hex).phase = s.phase := rfl
@[simp] theorem State.writeOutputs_trans (raw hex : List Byte) (s : State) : (s.writeOutputs raw hex).trans = s.trans := rfl
@[simp] theorem State.writeOutputs_rst (raw hex : List Byte) (s : State) : (s.writeOutputs raw hex).rst = s.rst := rfl
@[simp] theorem State.writeOutputs_cmdIn (raw hex : List Byte) (s : State) : (s.writeOutputs raw hex).cmdIn = s.cmdIn := rfl
@[simp] theorem State.writeOutputs_payIn (raw hex : List Byte) (s : State) : (s.writeOutputs raw hex).payIn = s.payIn := rfl

@[simp] theorem State.offerWord_ctx (w : Word) (s : State) : (s.offerWord w).ctx = s.ctx := rfl
@[simp] theorem State.offerWord_digest (w : Word) (s : State) : (s.offerWord w).digest = s.digest := rfl
@[simp] theorem State.offerWord_hex (w : Word) (s : State) : (s.offerWord w).hex = s.hex := rfl
@[simp] theorem State.offerWord_status (w : Word) (s : State) : (s.offerWord w).status = s.status := rfl
@[simp] theorem State.offerWord_phase (w : Word) (s : State) : (s.offerWord w).phase = s.phase := rfl
@[simp] theorem State.offerWord_trans (w : Word) (s : State) : (s.offerWord w).trans = s.trans := rfl
@[simp] theorem State.offerWord_rst (w : Word) (s : State) : (s.offerWord w).rst = s.rst := rfl
@[simp] theorem State.offerWord_cmdIn (w : Word) (s : State) : (s.offerWord w).cmdIn = s.cmdIn ++ [w] := rfl
@[simp] theorem State.offerWord_payIn (w : Word) (s : State) : (s.offerWord w).payIn = s.payIn := rfl

@[simp] theorem State.offerByte_ctx (b : Byte) (s : State) : (s.offerByte b).ctx = s.ctx := rfl
@[simp] theorem State.offerByte_digest (b : Byte) (s : State) : (s.offerByte b).digest = s.digest := rfl
@[simp] theorem State.offerByte_hex (b : Byte) (s : State) : (s.offerByte b).hex = s.hex := rfl
@[simp] theorem State.offerByte_status (b : Byte) (s : State) : (s.offerByte b).status = s.status := rfl
@[simp] theorem State.offerByte_phase (b : Byte) (s : State) : (s.offerByte b).phase = s.phase := rfl
@[simp] theorem State.offerByte_trans (b : Byte) (s : State) : (s.offerByte b).trans = s.trans := rfl
@[simp] theorem State.offerByte_rst (b : Byte) (s : State) : (s.offerByte b).rst = s.rst := rfl
@[simp] theorem State.offerByte_cmdIn (b : Byte) (s : State) : (s.offerByte b).cmdIn = s.cmdIn := rfl
@[simp] theorem State.offerByte_payIn (b : Byte) (s : State) : (s.offerByte b).payIn = s.payIn ++ [b] := rfl

@[simp] theorem State.driveRst_ctx (v : Bool) (s : State) : (s.driveRst v).ctx = s.ctx := rfl
@[simp] theorem State.driveRst_digest (v : Bool) (s : State) : (s.driveRst v).digest = s.digest := rfl
@[simp] theorem State.driveRst_hex (v : Bool) (s : State) : (s.driveRst v).hex = s.hex := rfl
@[simp] theorem State.driveRst_status (v : Bool) (s : State) : (s.driveRst v).status = s.status := rfl
@[simp] theorem State.driveRst_phase (v : Bool) (s : State) : (s.driveRst v).phase = s.phase := rfl
@[simp] theorem State.driveRst_trans (v : Bool) (s : State) : (s.driveRst v).trans = s.trans := rfl
@[simp] theorem State.driveRst_rst (v : Bool) (s : State) : (s.driveRst v).rst = v := rfl
@[simp] theorem State.driveRst_cmdIn (v : Bool) (s : State) : (s.driveRst v).cmdIn = s.cmdIn := rfl
@[simp] theorem State.driveRst_payIn (v : Bool) (s : State) : (s.driveRst v).payIn = s.payIn := rfl

@[simp] theorem State.setActive_digest (c : Ctx) (s : State) : (s.setActive c).digest = s.digest := by
  unfold State.setActive; split <;> rfl
@[simp] theorem State.setActive_hex (c : Ctx) (s : State) : (s.setActive c).hex = s.hex := by
  unfold State.setActive; split <;> rfl
@[simp] theorem State.setActive_status (c : Ctx) (s : State) : (s.setActive c).status = s.status := by
  unfold State.setActive; split <;> rfl
@[simp] theorem State.setActive_phase (c : Ctx) (s : State) : (s.setActive c).phase = s.phase := by
  unfold State.setActive; split <;> rfl
@[simp] theorem State.setActive_rst (c : Ctx) (s : State) : (s.setActive c).rst = s.rst := by
  unfold State.setActive; split <;> rfl
@[simp] theorem State.setActive_cmdIn (c : Ctx) (s : State) : (s.setActive c).cmdIn = s.cmdIn := by
  unfold State.setActive; split <;> rfl
@[simp] theorem State.setActive_payIn (c : Ctx) (s : State) : (s.setActive c).payIn = s.payIn := by
  unfold State.setActive; split <;> rfl

@[simp] theorem State.setActive_op (c : Ctx) (s : State) : (s.setActive c).trans.op = s.trans.op := by
  unfold State.setActive; split <;> rfl

@[simp] theorem State.setActive_rem (c : Ctx) (s : State) : (s.setActive c).trans.rem = s.trans.rem := by
  unfold State.setActive; split <;> rfl

@[simp] theorem State.setActive_cntLo (c : Ctx) (s : State) : (s.setActive c).trans.cntLo = s.trans.cntLo := by
  unfold State.setActive; split <;> rfl

@[simp] theorem State.setActive_work (c : Ctx) (s : State) : (s.setActive c).trans.work = s.trans.work := by
  unfold State.setActive; split <;> rfl

@[simp] theorem State.setActive_sched (c : Ctx) (s : State) : (s.setActive c).trans.sched = s.trans.sched := by
  unfold State.setActive; split <;> rfl

@[simp] theorem State.setActive_round (c : Ctx) (s : State) : (s.setActive c).trans.round = s.trans.round := by
  unfold State.setActive; split <;> rfl

@[simp] theorem State.setActive_ret (c : Ctx) (s : State) : (s.setActive c).trans.ret = s.trans.ret := by
  unfold State.setActive; split <;> rfl

@[simp] theorem State.setActive_pad (c : Ctx) (s : State) : (s.setActive c).trans.pad = s.trans.pad := by
  unfold State.setActive; split <;> rfl

@[simp] theorem State.setActive_enc (c : Ctx) (s : State) : (s.setActive c).trans.enc = s.trans.enc := by
  unfold State.setActive; split <;> rfl

/-- Reading the active context back after writing it, while a command runs (10_state.md R36). -/
@[simp] theorem State.activeCtx_setActive (c : Ctx) (s : State) (h : s.trans.op ≠ none) :
    (s.setActive c).activeCtx = some c := by
  cases ho : s.trans.op with
  | none => exact absurd ho h
  | some o => cases o <;> simp [State.setActive, State.activeCtx, ho]

/-- Only EVAL's writes miss the block's own context (10_state.md R36). -/
theorem State.setActive_ctx_of_eval (c : Ctx) (s : State) (h : s.trans.op = some .eval) : (s.setActive c).ctx = s.ctx := by
  simp [State.setActive, h]

/-- The other commands' writes go to the block's own context (10_state.md R36). -/
theorem State.setActive_ctx_of_ne_eval (c : Ctx) (s : State) (h : s.trans.op ≠ some .eval) : (s.setActive c).ctx = c := by
  unfold State.setActive
  split
  · contradiction
  · rfl

@[simp] theorem statusAccept_err (op : Op) (st : Status) : (statusAccept op st).err = st.err := rfl
@[simp] theorem statusAccept_busy (op : Op) (st : Status) : (statusAccept op st).busy = true := rfl
@[simp] theorem statusAccept_dvalid (op : Op) (st : Status) :
    (statusAccept op st).dvalid = if producesDigest op then false else st.dvalid := rfl
@[simp] theorem statusValid_err (st : Status) : (statusValid st).err = st.err := rfl
@[simp] theorem statusValid_busy (st : Status) : (statusValid st).busy = st.busy := rfl
@[simp] theorem statusValid_dvalid (st : Status) : (statusValid st).dvalid = true := rfl
@[simp] theorem statusDone_err (st : Status) : (statusDone st).err = st.err := rfl
@[simp] theorem statusDone_busy (st : Status) : (statusDone st).busy = false := rfl
@[simp] theorem statusDone_dvalid (st : Status) : (statusDone st).dvalid = st.dvalid := rfl
@[simp] theorem statusError_err (st : Status) : (statusError st).err = true := rfl
@[simp] theorem statusError_busy (st : Status) : (statusError st).busy = st.busy := rfl
@[simp] theorem statusError_dvalid (st : Status) : (statusError st).dvalid = st.dvalid := rfl

@[simp] theorem clearEffect_ctx (s : State) : (clearEffect s).ctx = Ctx.initial := rfl
@[simp] theorem clearEffect_digest (s : State) : (clearEffect s).digest = s.digest := rfl
@[simp] theorem clearEffect_hex (s : State) : (clearEffect s).hex = s.hex := rfl
@[simp] theorem clearEffect_status (s : State) :
    (clearEffect s).status = statusDone (statusAccept .clear s.status) := rfl
@[simp] theorem clearEffect_phase (s : State) : (clearEffect s).phase = .idle := rfl
@[simp] theorem clearEffect_trans (s : State) : (clearEffect s).trans = Transient.empty := rfl
@[simp] theorem clearEffect_rst (s : State) : (clearEffect s).rst = s.rst := rfl
@[simp] theorem clearEffect_cmdIn (s : State) : (clearEffect s).cmdIn = s.cmdIn := rfl
@[simp] theorem clearEffect_payIn (s : State) : (clearEffect s).payIn = s.payIn := rfl

@[simp] theorem updateEffect_ctx (p : List Byte) (s : State) : (updateEffect p s).ctx = s.ctx.update p := rfl
@[simp] theorem updateEffect_digest (p : List Byte) (s : State) : (updateEffect p s).digest = s.digest := rfl
@[simp] theorem updateEffect_hex (p : List Byte) (s : State) : (updateEffect p s).hex = s.hex := rfl
@[simp] theorem updateEffect_status (p : List Byte) (s : State) :
    (updateEffect p s).status = statusDone (statusAccept .update s.status) := rfl
@[simp] theorem updateEffect_phase (p : List Byte) (s : State) : (updateEffect p s).phase = .idle := rfl
@[simp] theorem updateEffect_trans (p : List Byte) (s : State) : (updateEffect p s).trans = Transient.empty := rfl
@[simp] theorem updateEffect_rst (p : List Byte) (s : State) : (updateEffect p s).rst = s.rst := rfl
@[simp] theorem updateEffect_cmdIn (p : List Byte) (s : State) : (updateEffect p s).cmdIn = s.cmdIn := rfl
@[simp] theorem updateEffect_payIn (p : List Byte) (s : State) : (updateEffect p s).payIn = s.payIn := rfl

@[simp] theorem finalizeEffect_ctx (p : List Byte) (s : State) : (finalizeEffect p s).ctx = Ctx.initial := rfl
@[simp] theorem finalizeEffect_digest (p : List Byte) (s : State) :
    (finalizeEffect p s).digest = some (serializeRaw (s.ctx.finalHash p)) := rfl
@[simp] theorem finalizeEffect_hex (p : List Byte) (s : State) :
    (finalizeEffect p s).hex = some (serializeHex (s.ctx.finalHash p)) := rfl
@[simp] theorem finalizeEffect_status (p : List Byte) (s : State) :
    (finalizeEffect p s).status = statusDone (statusValid (statusAccept .finalize s.status)) := rfl
@[simp] theorem finalizeEffect_phase (p : List Byte) (s : State) : (finalizeEffect p s).phase = .idle := rfl
@[simp] theorem finalizeEffect_trans (p : List Byte) (s : State) : (finalizeEffect p s).trans = Transient.empty := rfl
@[simp] theorem finalizeEffect_rst (p : List Byte) (s : State) : (finalizeEffect p s).rst = s.rst := rfl
@[simp] theorem finalizeEffect_cmdIn (p : List Byte) (s : State) : (finalizeEffect p s).cmdIn = s.cmdIn := rfl
@[simp] theorem finalizeEffect_payIn (p : List Byte) (s : State) : (finalizeEffect p s).payIn = s.payIn := rfl

@[simp] theorem evalEffect_ctx (p : List Byte) (s : State) : (evalEffect p s).ctx = s.ctx := rfl
@[simp] theorem evalEffect_digest (p : List Byte) (s : State) : (evalEffect p s).digest = some (sha1Raw p) := rfl
@[simp] theorem evalEffect_hex (p : List Byte) (s : State) : (evalEffect p s).hex = some (sha1Hex p) := rfl
@[simp] theorem evalEffect_status (p : List Byte) (s : State) :
    (evalEffect p s).status = statusDone (statusValid (statusAccept .eval s.status)) := rfl
@[simp] theorem evalEffect_phase (p : List Byte) (s : State) : (evalEffect p s).phase = .idle := rfl
@[simp] theorem evalEffect_trans (p : List Byte) (s : State) : (evalEffect p s).trans = Transient.empty := rfl
@[simp] theorem evalEffect_rst (p : List Byte) (s : State) : (evalEffect p s).rst = s.rst := rfl
@[simp] theorem evalEffect_cmdIn (p : List Byte) (s : State) : (evalEffect p s).cmdIn = s.cmdIn := rfl
@[simp] theorem evalEffect_payIn (p : List Byte) (s : State) : (evalEffect p s).payIn = s.payIn := rfl

end Sys2Proof.Machine
end

