-- ==== Sys2Proof/Laws/Ops.lean ====
section
/-! SUPPORT. What the shared operations can do, said once: acceptance of a command, the buffer, the sequencer and the step. -/

namespace Sys2Proof.Machine

theorem whenAccepted_ready {s : State} (h : s.Ready) (run : State → State) : whenAccepted s run = .next (run s) := by
  simp [whenAccepted, h.1, h.2]

theorem whenAccepted_rst {s : State} (h : s.rst = true) (run : State → State) :
    whenAccepted s run = .next s.applyReset := by
  simp [whenAccepted, h]

theorem whenAccepted_halt {s : State} {w : Word} (h : s.rst = false) (hp : s.phase = .halt w) (run : State → State) :
    whenAccepted s run = .fault (.illegalCommand w) := by
  simp [whenAccepted, h, hp]

theorem whenAccepted_running {s : State} (h : s.rst = false) (hp : s.phase.running = true) (run : State → State) :
    whenAccepted s run = .next s := by
  cases hph : s.phase <;> simp_all [whenAccepted, Phase.running]

/-- All a command can answer with a next state: reset, its own effect in IDLE, or a held word. -/
theorem whenAccepted_next {s t : State} {run : State → State} (h : whenAccepted s run = .next t) :
    (s.rst = true ∧ t = s.applyReset) ∨ (s.Ready ∧ t = run s) ∨ (s.rst = false ∧ s.phase.running = true ∧ t = s) := by
  cases hr : s.rst with
  | true =>
    rw [whenAccepted_rst hr] at h
    exact .inl ⟨rfl, by cases h; rfl⟩
  | false =>
    right
    cases hp : s.phase with
    | idle =>
      rw [whenAccepted_ready ⟨hr, hp⟩] at h
      exact .inl ⟨⟨hr, hp⟩, by cases h; rfl⟩
    | halt w => simp [whenAccepted_halt hr hp] at h
    | _ =>
      rw [whenAccepted_running hr (by simp [hp, Phase.running])] at h
      exact .inr ⟨rfl, rfl, by cases h; rfl⟩

/-- The effect of a command in a block that accepts it (spec/41_update.md R140, spec/42_finalize.md R160, spec/44_host_commands.md R210,
R211). -/
def effectOf : Instr → State → State
  | .clear => clearEffect
  | .update p => updateEffect p
  | .finalize p => finalizeEffect p
  | .eval p => evalEffect p

/-- Every command is its effect, when the block accepts it. -/
theorem exec_eq (i : Instr) (s : State) : exec i s = whenAccepted s (effectOf i) := by cases i <;> rfl

/-- A command leaves the block ready (10_state.md R33), and touches neither ERR nor what the host offers beyond it. -/
theorem effectOf_frame (i : Instr) (s : State) :
    (effectOf i s).phase = .idle ∧ (effectOf i s).trans = Transient.empty ∧ (effectOf i s).rst = s.rst ∧
      (effectOf i s).cmdIn = s.cmdIn ∧ (effectOf i s).payIn = s.payIn ∧ (effectOf i s).status.err = s.status.err ∧
      (effectOf i s).status.busy = false := by
  cases i <;> simp [effectOf]

/-- A command never answers a refusal. -/
theorem whenAccepted_not_refused (s : State) (run : State → State) (r : Refusal) : whenAccepted s run ≠ .refused r := by
  unfold whenAccepted
  split
  · simp
  · split <;> simp

/-- A write at BUFLEN appends (20_memory.md R50). -/
@[simp] theorem memWrite_length_self (buf v : List Byte) : memWrite buf buf.length v = buf ++ v := by
  simp [memWrite]

/-- A read of all of a full buffer is the buffer (20_memory.md R50). -/
theorem memRead_all {buf : List Byte} {n : Nat} (h : buf.length = n) : memRead buf 0 n = buf := by
  simp [memRead, ← h]

theorem memWrite_length {buf v : List Byte} {i : Nat} (h : i ≤ buf.length) :
    (memWrite buf i v).length = max buf.length (i + v.length) := by
  simp only [memWrite, List.length_append, List.length_take, List.length_drop]
  omega

/-- A byte outside the written range reads as before (00_scope.md R10). -/
theorem memWrite_getElem?_outside {buf v : List Byte} {i k : Nat} (h : i ≤ buf.length) (hk : k < i ∨ i + v.length ≤ k) :
    (memWrite buf i v)[k]? = buf[k]? := by
  have hlen : (buf.take i).length = i := by simp [h]
  rcases hk with hk | hk
  · rw [memWrite, List.append_assoc, List.getElem?_append_left (by omega), List.getElem?_take_of_lt hk]
  · rw [memWrite, List.getElem?_append_right (by simp [hlen]; omega), List.getElem?_drop]
    congr 1
    simp only [List.length_append, hlen]
    omega

@[simp] theorem compressBlocks_zero (h : Hash) (bytes : List Byte) : compressBlocks 0 h bytes = h := rfl

@[simp] theorem compressBlocks_succ (n : Nat) (h : Hash) (bytes : List Byte) :
    compressBlocks (n + 1) h bytes = compressBlocks n (compress h (bytes.take 64)) (bytes.drop 64) := rfl

/-- The first n blocks, then m more (20_memory.md R60). -/
theorem compressBlocks_add (m n : Nat) (h : Hash) (bytes : List Byte) :
    compressBlocks (n + m) h bytes = compressBlocks m (compressBlocks n h bytes) (bytes.drop (64 * n)) := by
  induction n generalizing h bytes with
  | zero => simp
  | succ n ih =>
    rw [Nat.add_right_comm, compressBlocks_succ, ih, compressBlocks_succ, List.drop_drop]
    congr 2
    omega

/-- Compressing n blocks reads no byte from 64 n up. -/
theorem compressBlocks_append (n : Nat) (h : Hash) (bytes more : List Byte) (hn : 64 * n ≤ bytes.length) :
    compressBlocks n h (bytes ++ more) = compressBlocks n h bytes := by
  induction n generalizing h bytes with
  | zero => rfl
  | succ n ih =>
    rw [compressBlocks_succ, compressBlocks_succ, List.take_append_of_le_length (by omega),
      List.drop_append_of_le_length (by omega), ih _ _ (by simp; omega)]

/-- Compressing blocks is a fold over the blocks. -/
theorem compressBlocks_eq_foldl (n : Nat) (h : Hash) (bytes : List Byte) :
    compressBlocks n h bytes = (splitBlocks n bytes).foldl compress h := by
  induction n generalizing h bytes with
  | zero => rfl
  | succ n ih => simp [splitBlocks, ih]

@[simp] theorem splitBlocks_length (n : Nat) (bytes : List Byte) : (splitBlocks n bytes).length = n := by
  induction n generalizing bytes with
  | zero => rfl
  | succ n ih => simp [splitBlocks, ih]

/-- The first byte is the most significant (20_memory.md R52): be32 is the four bytes side by side. -/
theorem be32_eq_append (b0 b1 b2 b3 : Byte) : be32 b0 b1 b2 b3 = b0 ++ b1 ++ b2 ++ b3 := by
  apply BitVec.eq_of_getLsbD_eq
  intro i hi
  simp only [be32, BitVec.getLsbD_or, BitVec.getLsbD_shiftLeft, BitVec.getLsbD_setWidth]
  rw [BitVec.getLsbD_append, BitVec.getLsbD_append, BitVec.getLsbD_append]
  interval_cases i <;> simp

@[simp] theorem bytesBe32_length (x : Word) : (bytesBe32 x).length = 4 := rfl

@[simp] theorem bytesBe64_length (v : DWord) : (bytesBe64 v).length = 8 := rfl

@[simp] theorem hexOfBytes_length (bytes : List Byte) : (hexOfBytes bytes).length = 2 * bytes.length := by
  induction bytes with
  | nil => rfl
  | cons b bs ih => simp only [hexOfBytes, hexPair, List.length_append, List.length_cons, List.length_nil, ih]; omega

theorem hexOfBytes_append (xs ys : List Byte) : hexOfBytes (xs ++ ys) = hexOfBytes xs ++ hexOfBytes ys := by
  induction xs with
  | nil => rfl
  | cons b bs ih => simp [hexOfBytes, ih]

@[simp] theorem blockWords_length (bytes : List Byte) : (blockWords bytes).length = bytes.length / 4 := by
  induction bytes using blockWords.induct with
  | case1 b0 b1 b2 b3 rest ih => simp only [blockWords, List.length_cons, ih]; omega
  | case2 l h =>
    rcases l with _ | ⟨a, _ | ⟨b, _ | ⟨c, _ | ⟨d, r⟩⟩⟩⟩
    · simp [blockWords]
    · simp [blockWords]
    · simp [blockWords]
    · simp [blockWords]
    · exact absurd rfl (h a b c d r)

@[simp] theorem extendSchedule_zero (w : List Word) : extendSchedule w 0 = w := rfl

theorem extendSchedule_succ (w : List Word) (n : Nat) :
    extendSchedule w (n + 1) = extendSchedule w n ++ [scheduleWord (extendSchedule w n) (16 + n)] := rfl

@[simp] theorem extendSchedule_length (w : List Word) (n : Nat) : (extendSchedule w n).length = w.length + n := by
  induction n with
  | zero => rfl
  | succ n ih => simp only [extendSchedule_succ, List.length_append, List.length_singleton, ih]; omega

@[simp] theorem runRounds_zero (w : List Word) (v : Work) : runRounds w v 0 = v := rfl

theorem runRounds_succ (w : List Word) (v : Work) (n : Nat) :
    runRounds w v (n + 1) = roundStep n (w.getD n 0) (runRounds w v n) := rfl

@[simp] theorem tickN_zero (s : State) : tickN 0 s = .next s := rfl

theorem tickN_succ_next {s t : State} (n : Nat) (h : tick s = .next t) : tickN (n + 1) s = tickN n t := by
  simp [tickN, h]

/-- Steps of the sequencer compose. -/
theorem tickN_add {s t : State} {m n : Nat} (h : tickN m s = .next t) : tickN (m + n) s = tickN n t := by
  induction m generalizing s with
  | zero => simp only [tickN_zero] at h; cases h; simp
  | succ m ih =>
    rw [Nat.add_right_comm]
    simp only [tickN] at h ⊢
    split <;> simp_all

theorem tick_rst {s : State} (h : s.rst = true) : tick s = .next s.applyReset := by simp [tick, h]

theorem tick_idle {s : State} (h : s.Ready) : tick s = seqIdle s := by simp [tick, h.1, h.2]

theorem tick_cntLo {s : State} (h : s.rst = false) (hp : s.phase = .cntLo) : tick s = seqCntLo s := by simp [tick, h, hp]

theorem tick_cntHi {s : State} (h : s.rst = false) (hp : s.phase = .cntHi) : tick s = seqCntHi s := by simp [tick, h, hp]

theorem tick_absorb {s : State} (h : s.rst = false) (hp : s.phase = .absorb) : tick s = seqAbsorb s := by simp [tick, h, hp]

theorem tick_compress {s : State} (h : s.rst = false) (hp : s.phase = .compress) : tick s = seqCompress s := by
  simp [tick, h, hp]

theorem tick_pad {s : State} (h : s.rst = false) (hp : s.phase = .pad) : tick s = seqPad s := by simp [tick, h, hp]

theorem tick_encode {s : State} (h : s.rst = false) (hp : s.phase = .encode) : tick s = seqEncode s := by simp [tick, h, hp]

theorem tick_halt {s : State} {w : Word} (h : s.rst = false) (hp : s.phase = .halt w) :
    tick s = .fault (.illegalCommand w) := by simp [tick, h, hp]

/-! No update of the sequencer moves what the host offers; the phases that take a transfer do (30_encoding.md R71). -/

@[simp] theorem seqPayloadDone_cmdIn (s : State) : (seqPayloadDone s).cmdIn = s.cmdIn := by
  unfold seqPayloadDone; split <;> rfl
@[simp] theorem seqPayloadDone_payIn (s : State) : (seqPayloadDone s).payIn = s.payIn := by
  unfold seqPayloadDone; split <;> rfl
@[simp] theorem seqTakeByte_cmdIn (b : Byte) (r : DWord) (c : Ctx) (s : State) : (seqTakeByte b r c s).cmdIn = s.cmdIn := by
  unfold seqTakeByte; dsimp only; split <;> simp
@[simp] theorem seqTakeByte_payIn (b : Byte) (r : DWord) (c : Ctx) (s : State) : (seqTakeByte b r c s).payIn = s.payIn := by
  unfold seqTakeByte; dsimp only; split <;> simp
@[simp] theorem seqPadCompress_cmdIn (c : Ctx) (buf : List Byte) (next : PadStep) (s : State) :
    (seqPadCompress c buf next s).cmdIn = s.cmdIn := by simp [seqPadCompress]
@[simp] theorem seqPadCompress_payIn (c : Ctx) (buf : List Byte) (next : PadStep) (s : State) :
    (seqPadCompress c buf next s).payIn = s.payIn := by simp [seqPadCompress]
@[simp] theorem seqPublish_cmdIn (raw hex : List Byte) (s : State) : (seqPublish raw hex s).cmdIn = s.cmdIn := by
  unfold seqPublish; split <;> rfl
@[simp] theorem seqPublish_payIn (raw hex : List Byte) (s : State) : (seqPublish raw hex s).payIn = s.payIn := by
  unfold seqPublish; split <;> rfl

/-- All a fetch can answer: a whole transaction in a ready state, or a step of the sequencer. -/
theorem fetch_cases (s : State) :
    fetch s = .sequence ∨
      ∃ i ws bs, s.Ready ∧ decode s.cmdIn s.payIn = .complete i ws bs ∧
        fetch s = .run i { s with cmdIn := ws, payIn := bs } := by
  unfold fetch
  split
  · exact .inl rfl
  · next hr =>
    split
    · next hp =>
      split
      · next i ws bs hd => exact .inr ⟨i, ws, bs, ⟨by simpa using hr, hp⟩, hd, rfl⟩
      · exact .inl rfl
    · exact .inl rfl

/-- All a step can do: a whole command, or a step of the sequencer. -/
theorem step_cases (s : State) :
    step s = tick s ∨
      ∃ i ws bs, s.Ready ∧ decode s.cmdIn s.payIn = .complete i ws bs ∧
        step s = exec i { s with cmdIn := ws, payIn := bs } := by
  rcases fetch_cases s with h | ⟨i, ws, bs, hr, hd, h⟩
  · exact .inl (by simp [step, h])
  · exact .inr ⟨i, ws, bs, hr, hd, by simp [step, h]⟩

/-- Outside IDLE a step is a step of the sequencer (log entry 1). -/
theorem step_eq_tick {s : State} (h : s.phase ≠ .idle) : step s = tick s := by
  rcases step_cases s with h' | ⟨i, ws, bs, hr, -, -⟩
  · exact h'
  · exact absurd hr.2 h

end Sys2Proof.Machine
end

