-- ==== Sys2Proof/Laws/PerInstr.lean ====
section
/-! SUPPORT. Statements about every instruction as syntax, one lemma per constructor. -/

namespace Sys2Proof.Laws.Encoding

/-- The transfers of an instruction begin with its operation's command word, have the number of words R77 gives the operation, and
carry exactly the payload (spec/30_encoding.md R72, R74, R77, R84). -/
def Statement (i : Instr) : Prop :=
  (encode i).1.head? = some i.op.word ∧ (encode i).1.length = i.op.words ∧ (encode i).2 = i.payload

theorem clear : Statement .clear := ⟨rfl, rfl, rfl⟩

theorem update (p : List Byte) : Statement (.update p) := ⟨rfl, rfl, rfl⟩

theorem finalize (p : List Byte) : Statement (.finalize p) := ⟨rfl, rfl, rfl⟩

theorem eval (p : List Byte) : Statement (.eval p) := ⟨rfl, rfl, rfl⟩

end Sys2Proof.Laws.Encoding
end

