-- ==== Sys2Proof/Tests/Slice0.lean ====
section
/-! SUPPORT. Tests against the spec's own examples and vectors (spec/95_test_vectors.md), the smoke tests of WellFormed, and for every
obligation with hypotheses a named state and operands that meet them. -/

namespace Sys2Proof.Tests

open Sys2Proof.Machine

/-! ### States -/

/-- In IDLE with the bytes "abc" absorbed. -/
def midMessage : State := { State.reset with ctx := { h := Config.iv, len := 3, buf := [0x61, 0x62, 0x63] } }

/-- In IDLE with the words and bytes offered. -/
def offering (ws : List Word) (bs : List Byte) : State := { State.reset with cmdIn := ws, payIn := bs }

/-- In HALT after the word 0x00000005. -/
def halted : State := { State.reset with status := { busy := false, dvalid := false, err := true }, phase := .halt 5 }

/-- `rst` is 1 in HALT. -/
def halting : State := { halted with rst := true }

/-- An UPDATE of five bytes waits for the last two of them. -/
def absorbing : State :=
  { State.reset with
    ctx := { h := Config.iv, len := 5, buf := [0x61, 0x62, 0x63] }
    status := { busy := true, dvalid := false, err := false }
    phase := .absorb
    trans := { Transient.empty with op := some .update, rem := some 2 } }

/-- The same UPDATE with all its payload taken. -/
def absorbed : State := { absorbing with trans := { Transient.empty with op := some .update, rem := some 0 } }

/-- An UPDATE of four bytes has one left, and the host offers two. -/
def lastByte : State :=
  { absorbing with
    ctx := { h := Config.iv, len := 4, buf := [0x61, 0x62, 0x63] }
    trans := { Transient.empty with op := some .update, rem := some 1 }
    payIn := [0x64, 0x65] }

/-- An UPDATE whose COUNT words are offered and not taken. -/
def countingLo : State :=
  { absorbing with
    ctx := Ctx.initial, phase := .cntLo, trans := { Transient.empty with op := some .update }, cmdIn := [5, 0] }

/-- The same UPDATE with COUNT_LO taken. -/
def countingHi : State :=
  { countingLo with phase := .cntHi, trans := { Transient.empty with op := some .update, cntLo := some 5 }, cmdIn := [0] }

/-- The block of 64 bytes 0x61. -/
def blockOfA : List Byte := List.replicate 64 0x61

/-- An UPDATE of 64 bytes at the start of its compression. -/
def compressing : State :=
  { State.reset with
    ctx := { h := Config.iv, len := 64, buf := blockOfA }
    status := { busy := true, dvalid := false, err := false }
    phase := .compress
    trans := { Transient.empty with op := some .update, rem := some 0, ret := some .absorb } }

/-- The words of H for "abc" (V40-1). -/
def hashOfAbc : Hash :=
  { h0 := 0xa9993e36, h1 := 0x4706816a, h2 := 0xba3e2571, h3 := 0x7850c26c, h4 := 0x9cd0d89d }

/-- In IDLE with the digest of "abc" in the outputs. -/
def publishing : State := State.writeOutputs (serializeRaw hashOfAbc) (serializeHex hashOfAbc) State.reset

/-- Two blocks; host 7 drives the first one, host 8 the second. -/
def twoBlocks : System := systemReset [7, 8]

/-! ### WellFormed -/

/-- A payload of 2^64 bytes has no COUNT (30_encoding.md R75). -/
theorem test_payload_too_long : ¬ (Instr.update (List.replicate (2 ^ 64) 0)).WellFormed := by
  intro h
  have e : (List.replicate (2 ^ 64) (0 : Byte)).length = 2 ^ 64 := List.length_replicate
  exact absurd (Nat.lt_of_le_of_lt (Nat.le_of_eq e.symm) h) (Nat.lt_irrefl _)

theorem test_payload_fits : (Instr.update [0x61]).WellFormed := by decide

/-- A text term with a character that is not ASCII (30_encoding.md R82). -/
theorem test_text_term_not_ascii : PayloadTerm.wellFormed (.text [Char.ofNat 0x80]) = false := by decide

theorem test_line_with_bad_term : SourceLine.wellFormed (.eval (some [.hexBytes [1], .text [Char.ofNat 0xe9]])) = false := by decide

theorem test_line_well_formed : SourceLine.wellFormed (.digest [.text ['a', 'b', 'c'], .repeated 0 3]) = true := by decide

/-! ### Decoding (V30-1, V30-2, V30-3): words written out from R73 and R74 -/

theorem test_decode_clear : decode [0b00000000000000000000000000000001#32] [] = .complete .clear [] [] := by decide

theorem test_decode_update :
    decode [0b00000000000000000000000000000010#32, 3, 0] [0x61, 0x62, 0x63, 0x64] =
      .complete (.update [0x61, 0x62, 0x63]) [] [0x64] := by decide

theorem test_decode_finalize :
    decode [0b00000000000000000000000000000011#32, 0, 0, 1] [] = .complete (.finalize []) [1] [] := by decide

theorem test_decode_eval :
    decode [0b00000000000000000000000000000100#32, 0x38, 0] (List.replicate 56 0x61) =
      .complete (.eval (List.replicate 56 0x61)) [] [] := by decide

/-- A COUNT word is no command (V30-3). -/
theorem test_count_is_not_decoded : decode [2, 1, 0] [0x00] = .complete (.update [0x00]) [] [] := by decide

/-- COUNT = 2^32 (V30-1): the high word counts, so one byte is not enough. -/
theorem test_count_high_word : decode [2, 0, 1] [0x00] = .incomplete := by decide

theorem test_decode_op_zero : decode [0x00000000, 7] [] = .illegal 0x00000000 [7] := by decide

theorem test_decode_op_five : decode [0x00000005] [] = .illegal 0x00000005 [] := by decide

theorem test_decode_op_fifteen : decode [0x0000000f] [] = .illegal 0x0000000f [] := by decide

theorem test_decode_reserved_low : decode [0x00000012, 0, 0] [] = .illegal 0x00000012 [0, 0] := by decide

theorem test_decode_reserved_high : decode [0x80000001] [] = .illegal 0x80000001 [] := by decide

theorem test_encode_update : encode (.update [0x61, 0x62, 0x63]) = ([2, 3, 0], [0x61, 0x62, 0x63]) := by decide

/-- Table bits: the command word, then COUNT_LO = 2, the bits above 96 ignored; the payload is zero bytes. -/
theorem test_table_word_with_count : decodeTableWord 96 0x00000000_00000002_00000004 = some (.eval [0, 0]) := by decide

theorem test_table_word_update : decodeTableWord 32 0x00000002 = some (.update []) := by decide

theorem test_table_word_refused : decodeTableWord 32 0x00000006 = none := by decide

/-- A table instruction is the next thing a step runs. -/
theorem test_fetch_word_clear : step (State.reset.withFetchWord 32 1) = exec .clear State.reset := by rfl

theorem test_fetch_word_finalize : step (State.reset.withFetchWord 32 3) = exec (.finalize []) State.reset := by rfl

/-! ### Compression (V40) -/

theorem test_mix0 : mix 19 0xffff0000 0xff00ff00 0xf0f0f0f0 = 0xff00f0f0 := by decide

theorem test_mix1 : mix 20 0xffff0000 0xff00ff00 0xf0f0f0f0 = 0xf00f0ff0 := by decide

theorem test_mix2 : mix 40 0xffff0000 0xff00ff00 0xf0f0f0f0 = 0xfff0f000 := by decide

theorem test_mix3 : mix 79 0xffff0000 0xff00ff00 0xf0f0f0f0 = 0xf00f0ff0 := by decide

theorem test_round_constants :
    [0, 19, 20, 39, 40, 59, 60, 79].map roundConst =
      [0x5a827999, 0x5a827999, 0x6ed9eba1, 0x6ed9eba1, 0x8f1bbcdc, 0x8f1bbcdc, 0xca62c1d6, 0xca62c1d6] := by decide

theorem test_rotl_5 : rotl 0x12345678 5 = 0x468acf02 := by decide

theorem test_rotl_30 : rotl 0x12345678 30 = 0x048d159e := by decide

/-- Round 0 on the first word of "abc" (V40-1). -/
theorem test_round_zero :
    roundStep 0 0x61626380 (loadWork Config.iv) =
      { a := 0x0116fc33, b := 0x67452301, c := 0x7bf36ae2, d := 0x98badcfe, e := 0x10325476 } := by decide

/-- The whole compression of the "abc" block (V40-1). -/
theorem test_compress_abc : compress Config.iv (paddedMessage [0x61, 0x62, 0x63] 3) = hashOfAbc := by decide +kernel

/-- The final addition drops the carry (V40-1). -/
theorem test_final_addition_wraps : (0xc3d2e1f0 : Word) + 0xd8fdf6ad = 0x9cd0d89d := by decide

/-! ### CLEAR -/

/-- CLEAR in the middle of a message drops it and keeps a valid digest (R210, V44). -/
theorem test_clear :
    exec .clear { midMessage with digest := publishing.digest, hex := publishing.hex, status := publishing.status } =
      .next publishing := by rfl

/-! ### UPDATE -/

/-- V41-2: one byte completes the buffer, its block is compressed, and the next byte is kept. -/
theorem test_update_crosses_block :
    (Ctx.update { h := Config.iv, len := 63, buf := List.replicate 63 0x61 } [0x61, 0x61]) =
      { h := { h0 := 0xda4968eb, h1 := 0x2e377c1f, h2 := 0x884e8f52, h3 := 0x83524beb, h4 := 0xe74ebdbd }
        len := 65
        buf := [0x61] } := by decide +kernel

/-- V41-6: LEN wraps. -/
theorem test_update_len_wraps :
    (Ctx.update { h := Config.iv, len := 0xffffffffffffffff, buf := [] } [0x00]).len = 0 := by decide

/-! ### FINALIZE -/

/-- L1-1: the empty message from reset. -/
theorem test_finalize_empty :
    Ctx.initial.finalHash [] =
      { h0 := 0xda39a3ee, h1 := 0x5e6b4b0d, h2 := 0x3255bfef, h3 := 0x95601890, h4 := 0xafd80709 } := by decide +kernel

/-- FINALIZE leaves the context of reset and DVALID = 1 (V42-7). -/
theorem test_finalize_reinitializes :
    ∃ t, exec (.finalize [0x64]) midMessage = .next t ∧ t.ctx = State.reset.ctx ∧ t.statusPort = 2 :=
  ⟨_, rfl, rfl, by decide⟩

/-- V42-1: the table's corners. -/
theorem test_pads : [0, 1, 55, 56, 57, 63, 64].map padsOf = [56, 55, 1, 64, 63, 57, 56] := by decide

/-- V42-2, n = 55. -/
theorem test_padding_55 : padding 55 55 = [0x80, 0, 0, 0, 0, 0, 0, 0x01, 0xb8] := by decide

/-- V42-5: the length field wraps at 2^61 bytes. -/
theorem test_length_field_wraps :
    bytesBe64 (bitLength 0x2000000000000001) = [0, 0, 0, 0, 0, 0, 0, 8] ∧
      bytesBe64 (bitLength 0x1fffffffffffffff) = [0xff, 0xff, 0xff, 0xff, 0xff, 0xff, 0xff, 0xf8] := by decide

/-! ### EVAL -/

/-- EVAL in the middle of a message leaves H, LEN and BUF (R211). -/
theorem test_eval_keeps_context : ∃ t, exec (.eval [0x00]) midMessage = .next t ∧ t.ctx = midMessage.ctx := ⟨_, rfl, rfl⟩

/-! ### Outputs (V30-4, V43) -/

theorem test_serialize_raw :
    serializeRaw hashOfAbc =
      [0xa9, 0x99, 0x3e, 0x36, 0x47, 0x06, 0x81, 0x6a, 0xba, 0x3e, 0x25, 0x71, 0x78, 0x50, 0xc2, 0x6c, 0x9c, 0xd0,
        0xd8, 0x9d] := by decide

theorem test_serialize_hex :
    (serializeHex hashOfAbc).take 8 = [0x61, 0x39, 0x39, 0x39, 0x33, 0x65, 0x33, 0x36] := by decide

theorem test_digest_bus :
    (match publishing.digestPort with | .ok d => decide (d = 0xa9993e364706816aba3e25717850c26c9cd0d89d) | .error _ => false) =
      true := by decide

theorem test_hex_bus_first_character :
    (match publishing.hexPort with | .ok x => decide (x.extractLsb' 312 8 = 0x61 ∧ x.extractLsb' 0 8 = 0x64) | .error _ => false) =
      true := by decide +kernel

theorem test_no_digest_after_reset : State.reset.digestPort = .error .noValue ∧ State.reset.hexPort = .error .noValue := ⟨rfl, rfl⟩

/-! ### The exception and reset -/

/-- An illegal word is taken, sets ERR and enters HALT; the next step is the fault. -/
theorem test_illegal_word :
    ∃ t, step (offering [0x00000005, 1] []) = .next t ∧ t.statusPort = 4 ∧ t.phase = .halt 5 ∧ t.cmdIn = [1] ∧
      step t = .fault (.illegalCommand 5) := ⟨_, rfl, by decide, rfl, rfl, rfl⟩

/-- Reset leaves HALT, and stray payload bytes stay on the port (R261). -/
theorem test_reset_leaves_halt :
    step { halting with payIn := [9] } = .next { State.reset with rst := true, payIn := [9] } := by rfl

/-! ### The sequencer -/

/-- A payload byte is appended and counted (R145). -/
theorem test_sequencer_takes_a_byte :
    ∃ t, step { absorbing with payIn := [0x64, 0x65, 0x66] } = .next t ∧ t.ctx.buf = [0x61, 0x62, 0x63, 0x64] ∧
      t.trans.rem = some 1 ∧ t.payIn = [0x65, 0x66] := ⟨_, rfl, rfl, rfl, rfl⟩

/-- An UPDATE whose payload is not all offered starts one transfer at a time (R72). -/
theorem test_incomplete_update_starts :
    ∃ t, step (offering [2, 1, 0] []) = .next t ∧ t.phase = .cntLo ∧ t.statusPort = 1 ∧ t.cmdIn = [1, 0] :=
  ⟨_, rfl, rfl, by decide, rfl⟩

/-! ### The assembler (V30-1) -/

/-- `update "ab" ++ x"6 3"` does not read: a hex byte is two digits together. -/
theorem test_assembler_split_digit :
    parseLine ['u', 'p', 'd', 'a', 't', 'e', ' ', 'x', '"', '6', ' ', '3', '"'] = none := by decide

/-- `Update "a" ++ 0x62*2 ; c` (R81, R82). -/
theorem test_assembler_terms :
    parseLine ['U', 'p', 'd', 'a', 't', 'e', ' ', '"', 'a', '"', ' ', '+', '+', ' ', '0', 'x', '6', '2', '*', '2', ' ', ';', 'c'] =
      some (some (.update (some [.text ['a'], .repeated 0x62 2]))) := by decide

/-- Log entry 9: spaces before the first byte of a hex term and after the last; a hex term of spaces alone is empty. -/
theorem test_assembler_hex_spaces :
    readHex [' ', '6', '1', ' ', '"'] = some ([0x61], []) ∧ readHex [' ', '"'] = some ([], []) := by decide

/-- Log entry 9: blanks before the mnemonic and none before the operand. -/
theorem test_assembler_blanks :
    parseLine [' ', '\t', 'E', 'V', 'A', 'L', '0', 'x', '6', '1', '*', '3'] = some (some (.eval (some [.repeated 0x61 3]))) := by
  decide

/-- `DIGEST "abc"` (R83, R84). -/
theorem test_assembler_digest :
    assembleLine (.digest [.text ['a', 'b', 'c']]) = ([1, 3, 3, 0], [0x61, 0x62, 0x63]) := by decide

/-! ### Witnesses: every obligation's hypotheses are met together by a named state and operands -/

theorem reset_ready : State.reset.Ready := ⟨rfl, rfl⟩

theorem midMessage_ready : midMessage.Ready := ⟨rfl, rfl⟩

theorem reset_inv : State.reset.Inv := ⟨⟨rfl, rfl⟩, trivial, ⟨by decide, by decide⟩, rfl⟩

theorem halted_inv : halted.Inv := ⟨⟨rfl, rfl⟩, trivial, ⟨by decide, by decide⟩, rfl⟩

theorem publishing_inv : publishing.Inv := ⟨⟨rfl, rfl⟩, ⟨rfl, rfl⟩, ⟨by decide, by decide⟩, rfl⟩

theorem absorbing_inv : absorbing.Inv :=
  ⟨⟨rfl, rfl⟩, trivial, .inl ⟨rfl, rfl⟩, ⟨rfl, rfl, rfl, rfl⟩, rfl, rfl, rfl, _, _, rfl, rfl, by decide, by
    show (5 - 2 : DWord).toNat % 64 = 3 % 64; decide⟩

theorem lastByte_inv : lastByte.Inv :=
  ⟨⟨rfl, rfl⟩, trivial, .inl ⟨rfl, rfl⟩, ⟨rfl, rfl, rfl, rfl⟩, rfl, rfl, rfl, _, _, rfl, rfl, by decide, by
    show (4 - 1 : DWord).toNat % 64 = 3 % 64; decide⟩

theorem countingLo_inv : countingLo.Inv :=
  ⟨⟨rfl, rfl⟩, trivial, .inl ⟨rfl, rfl⟩, ⟨rfl, rfl, rfl, rfl⟩, rfl, rfl, rfl, rfl, _, rfl, by decide, by decide⟩

theorem countingHi_inv : countingHi.Inv :=
  ⟨⟨rfl, rfl⟩, trivial, .inl ⟨rfl, rfl⟩, ⟨rfl, rfl, rfl, rfl⟩, rfl, rfl, rfl, rfl, _, rfl, by decide, by decide⟩

theorem compressing_inv : compressing.Inv :=
  ⟨⟨rfl, rfl⟩, trivial, .inl ⟨rfl, rfl⟩, .inl ⟨rfl, rfl, rfl⟩, rfl, rfl, _, _, rfl, rfl, by decide, .inl ⟨rfl, rfl, by
    show (64 - 0 : DWord).toNat % 64 = 64 % 64; decide⟩⟩

theorem witness_ResetAbortsEverything : halting.rst = true := rfl

theorem witness_EveryCountPairIsACount :
    (Op.update ≠ .clear) ∧ ([0x61] : List Byte).length = (0 : Word).toNat * 2 ^ 32 + (1 : Word).toNat := by decide

/-- The boundary COUNT = 0. -/
theorem witness_EveryCountPairIsACount_zero :
    (Op.eval ≠ .clear) ∧ ([] : List Byte).length = (0 : Word).toNat * 2 ^ 32 + (0 : Word).toNat := by decide

theorem witness_DecodeAfterEncode : (Instr.finalize [0xff]).WellFormed := by decide

theorem witness_EncodeAfterDecode : decode [3, 1, 0, 1] [0xff, 0xee] = .complete (.finalize [0xff]) [1] [0xee] := by decide

theorem witness_StepRunsTheDecodedInstruction :
    (offering [4, 1, 0] [0xff]).Ready ∧
      decode (offering [4, 1, 0] [0xff]).cmdIn (offering [4, 1, 0] [0xff]).payIn = .complete (.eval [0xff]) [] [] :=
  ⟨⟨rfl, rfl⟩, by decide⟩

/-- First clause, by the phase. -/
theorem witness_StepOtherwiseSequences_phase : ¬ absorbing.Ready := by
  intro h; exact absurd h.2 (by decide)

/-- First clause, by the offer: COUNT = 1 and no byte. -/
theorem witness_StepOtherwiseSequences_offer :
    ∀ i ws bs, decode (offering [2, 1, 0] []).cmdIn (offering [2, 1, 0] []).payIn ≠ .complete i ws bs := by
  have h : decode (offering [2, 1, 0] []).cmdIn (offering [2, 1, 0] []).payIn = .incomplete := by decide
  intro i ws bs; rw [h]; exact Decoded.noConfusion

/-- Second clause. -/
theorem witness_StepOtherwiseSequences_wait : State.reset.Ready ∧ State.reset.cmdIn = [] := ⟨⟨rfl, rfl⟩, rfl⟩

theorem witness_OnlyHaltFaults_next : absorbing.Inv := absorbing_inv

theorem witness_OnlyHaltFaults_halt : halted.Inv ∧ halted.phase = .halt 5 ∧ halted.rst = false := ⟨halted_inv, rfl, rfl⟩

/-- In IDLE: a wait. -/
theorem witness_EveryStepKeepsTheInvariant : State.reset.Inv ∧ step State.reset = .next State.reset := ⟨reset_inv, rfl⟩

/-- Inside a command: a payload byte is taken. -/
theorem witness_EveryStepKeepsTheInvariant_absorb : absorbing.Inv ∧ step absorbing = .next absorbing := ⟨absorbing_inv, rfl⟩

/-- Inside a command: a compression begins. -/
theorem witness_EveryStepKeepsTheInvariant_compress : compressing.Inv ∧ ∃ t, step compressing = .next t :=
  ⟨compressing_inv, _, rfl⟩

theorem witness_LegalStreamCompletes :
    (∀ i ∈ [Instr.update [0x61], .clear, .eval []], i.WellFormed) ∧
      (offering [2, 1, 0, 1, 4, 0, 0] [0x61]).Ready ∧
      (offering [2, 1, 0, 1, 4, 0, 0] [0x61]).cmdIn = (assemble [.update [0x61], .clear, .eval []]).1 ∧
      (offering [2, 1, 0, 1, 4, 0, 0] [0x61]).payIn = (assemble [.update [0x61], .clear, .eval []]).2 :=
  ⟨by decide, ⟨rfl, rfl⟩, by decide, by decide⟩

theorem witness_IllegalWordEntersHalt :
    (offering [0x80000001] []).Ready ∧ (offering [0x80000001] []).cmdIn = [0x80000001] ∧ decodeOp 0x80000001 = none :=
  ⟨⟨rfl, rfl⟩, rfl, by decide⟩

theorem witness_HaltIsEnteredOnlyByAnIllegalWord :
    ∃ t, step (offering [0x00000005] []) = .next t ∧ t.phase = .halt 0x00000005 := ⟨_, rfl, rfl⟩

/-- First clause: out of reset. -/
theorem witness_HaltIsLeftOnlyByReset : halted.phase = .halt 5 ∧ halted.rst = false := ⟨rfl, rfl⟩

/-- Second clause: in reset. -/
theorem witness_HaltIsLeftOnlyByReset_rst : halting.phase = .halt 5 ∧ halting.rst = true := ⟨rfl, rfl⟩

theorem witness_OnlyResetClearsErr :
    ∃ t, step halting = .next t ∧ halting.status.err = true ∧ t.status.err = false := ⟨_, rfl, rfl, rfl⟩

theorem witness_BusyBlockHoldsTheNextWord :
    absorbing.rst = false ∧ absorbing.phase.running = true ∧ absorbing.phase = .absorb ∧ step absorbing = .next absorbing :=
  ⟨rfl, rfl, rfl, rfl⟩

theorem witness_CommandsLeaveErrPhaseAndPorts :
    ∃ t, midMessage.rst = false ∧ exec (.eval [0x00]) midMessage = .next t := ⟨_, rfl, rfl⟩

/-- First clause: a FINALIZE word. -/
theorem witness_DvalidFollowsFinalizeAndEval :
    ∃ t, (offering [3] []).Ready ∧ (offering [3] []).cmdIn = 0x00000003 :: [] ∧ tick (offering [3] []) = .next t :=
  ⟨_, ⟨rfl, rfl⟩, rfl, rfl⟩

/-- First clause: an EVAL word. -/
theorem witness_DvalidFollowsFinalizeAndEval_eval :
    ∃ t, (offering [4] []).Ready ∧ (offering [4] []).cmdIn = 0x00000004 :: [] ∧ tick (offering [4] []) = .next t :=
  ⟨_, ⟨rfl, rfl⟩, rfl, rfl⟩

/-- Third clause: a CLEAR word. -/
theorem witness_DvalidFollowsFinalizeAndEval_clear :
    ∃ t, (offering [1] []).Ready ∧ (offering [1] []).cmdIn = 0x00000001 :: [] ∧ tick (offering [1] []) = .next t :=
  ⟨_, ⟨rfl, rfl⟩, rfl, rfl⟩

/-- Third clause: an UPDATE word. -/
theorem witness_DvalidFollowsFinalizeAndEval_update :
    ∃ t, (offering [2] []).Ready ∧ (offering [2] []).cmdIn = 0x00000002 :: [] ∧ tick (offering [2] []) = .next t :=
  ⟨_, ⟨rfl, rfl⟩, rfl, rfl⟩

/-- The second and fourth clauses: a ready state; the last: `rst` is 1. -/
theorem witness_DvalidFollowsFinalizeAndEval_ready : midMessage.Ready ∧ halting.rst = true := ⟨midMessage_ready, rfl⟩

theorem witness_ClearResetsTheContext : midMessage.Ready := midMessage_ready

/-- An empty buffer, with a whole block offered. -/
theorem witness_UpdateInThreeSteps_empty : State.reset.Ready ∧ State.reset.ctx.buf.length < 64 ∧ State.reset.ctx.buf = [] :=
  ⟨reset_ready, by decide, rfl⟩

/-- 3 + 60 = 63 bytes: the buffer is not filled. -/
theorem witness_UpdateInThreeSteps_short :
    midMessage.Ready ∧ midMessage.ctx.buf.length < 64 ∧ midMessage.ctx.buf ≠ [] ∧
      midMessage.ctx.buf.length + (List.replicate 60 (0x61 : Byte)).length < 64 := ⟨midMessage_ready, by decide, by decide, by decide⟩

/-- 3 + 61 = 64 bytes: the buffer is filled exactly. -/
theorem witness_UpdateInThreeSteps_full :
    midMessage.Ready ∧ midMessage.ctx.buf.length < 64 ∧ midMessage.ctx.buf ≠ [] ∧
      64 ≤ midMessage.ctx.buf.length + (List.replicate 61 (0x61 : Byte)).length := ⟨midMessage_ready, by decide, by decide, by decide⟩

theorem witness_UpdateClosedForm : midMessage.Ready ∧ midMessage.ctx.buf.length < 64 := ⟨midMessage_ready, by decide⟩

theorem witness_ClearAndUpdateFrame :
    ∃ t u, publishing.rst = false ∧ exec .clear publishing = .next t ∧ exec (.update [0x61]) publishing = .next u :=
  ⟨_, _, rfl, rfl, rfl⟩

theorem witness_ShortUpdateStoresOnlyAfterTheBuffer :
    midMessage.Ready ∧ midMessage.ctx.buf.length + (List.replicate 60 (0x61 : Byte)).length < 64 := ⟨midMessage_ready, by decide⟩

theorem witness_StreamingEquivalence : midMessage.Ready ∧ midMessage.ctx.buf.length < 64 := ⟨midMessage_ready, by decide⟩

theorem witness_FinalizeWritesTheDigest : midMessage.Ready := midMessage_ready

/-- The three cases of the pad count, and the remainders next to the middle one. -/
theorem witness_PadCount : 56 < 57 % 64 ∧ 55 % 64 < 56 ∧ 56 % 64 = 56 ∧ 56 < 63 % 64 ∧ 64 % 64 < 56 := by decide

theorem witness_FinalizeReinitializes : midMessage.Ready := midMessage_ready

theorem witness_FinalChunkConvention : midMessage.Ready ∧ midMessage.ctx.buf.length < 64 := ⟨midMessage_ready, by decide⟩

theorem witness_RemIsLenModulo64 : midMessage.ctx.Settled := ⟨by decide, by decide⟩

theorem witness_FinalizeOfAStreamIsSha1 : State.reset.Ready ∧ State.reset.ctx = Ctx.initial := ⟨reset_ready, rfl⟩

theorem witness_EvalHashesItsPayloadAlone : midMessage.Ready := midMessage_ready

theorem witness_EvalFrame : ∃ t, midMessage.rst = false ∧ exec (.eval [0x00]) midMessage = .next t := ⟨_, rfl, rfl⟩

theorem witness_EvalDoesNotDisturbAMessage : midMessage.Ready := midMessage_ready

theorem witness_IdempotentReset : midMessage.Ready := midMessage_ready

/-- Both clauses of hexchar at their boundary, and byte 19 of a digest. -/
theorem witness_HexSpellsEachByte :
    (9#4).toNat ≤ 9 ∧ 10 ≤ (10#4).toNat ∧ 10 ≤ (15#4).toNat ∧ (serializeRaw hashOfAbc)[19]? = some 0x9d := by decide

theorem witness_DigestLengthsAreFixed : midMessage.Ready := midMessage_ready

theorem witness_HexDecodesToDigest : publishing.Inv ∧ publishing.status.dvalid = true := ⟨publishing_inv, rfl⟩

theorem witness_DigestBusPacking :
    publishing.status.dvalid = true ∧ publishing.digest = some (serializeRaw hashOfAbc) ∧ State.reset.status.dvalid = false :=
  ⟨rfl, rfl, rfl⟩

theorem witness_HexBusPacking :
    publishing.status.dvalid = true ∧ publishing.hex = some (serializeHex hashOfAbc) ∧ (serializeHex hashOfAbc).length = 40 ∧
      State.reset.status.dvalid = false := ⟨rfl, rfl, by decide, rfl⟩

theorem witness_ContextIsNotObservable :
    midMessage.Ready ∧ ∀ i ∈ [Instr.update [0x61], .eval [], .clear], i.op ≠ .finalize := ⟨midMessage_ready, by decide⟩

theorem witness_RotlRotatesLeft : 0 < 1 ∧ 1 < 32 ∧ 0 < 32 ∧ 0 < 31 ∧ 31 < 32 := by decide

/-- The first and last round of each group. -/
theorem witness_MixingFunctionsBitByBit :
    31 < 32 ∧ 0 < 20 ∧ 19 < 20 ∧ (20 ≤ 20 ∧ 39 < 40) ∧ (40 ≤ 40 ∧ 59 < 60) ∧ 60 ≤ 60 ∧ 79 < 80 := by decide

theorem witness_ScheduleRecurrence : blockOfA.length = 64 ∧ 15 < 16 ∧ 16 ≤ 16 ∧ 79 < 80 := by decide

/-- Working variables that follow the round rule from IV, with every schedule word 0. -/
def zeroRounds : Nat → Work
  | 0 => { a := 0x67452301, b := 0xefcdab89, c := 0x98badcfe, d := 0x10325476, e := 0xc3d2e1f0 }
  | t + 1 =>
    { a := rotl (zeroRounds t).a 5 + mix t (zeroRounds t).b (zeroRounds t).c (zeroRounds t).d + (zeroRounds t).e +
        (if t < 20 then 0x5a827999 else if t < 40 then 0x6ed9eba1 else if t < 60 then 0x8f1bbcdc else 0xca62c1d6) + 0
      b := (zeroRounds t).a
      c := rotl (zeroRounds t).b 30
      d := (zeroRounds t).c
      e := (zeroRounds t).d }

/-- The block of 64 zero bytes, whose schedule is all zeros (V40-5), with the working variables above. -/
theorem witness_CompressionIsEightyRounds :
    ∃ (blk : List Byte) (w : Nat → Word) (v : Nat → Work), blk.length = 64 ∧
      (∀ j < 16, w j =
        blk.getD (4 * j) 0 ++ blk.getD (4 * j + 1) 0 ++ blk.getD (4 * j + 2) 0 ++ blk.getD (4 * j + 3) 0) ∧
      (∀ t, 16 ≤ t → t < 80 → w t = rotl (w (t - 3) ^^^ w (t - 8) ^^^ w (t - 14) ^^^ w (t - 16)) 1) ∧
      v 0 = { a := Config.iv.h0, b := Config.iv.h1, c := Config.iv.h2, d := Config.iv.h3, e := Config.iv.h4 } ∧
      ∀ t < 80, v (t + 1) =
        { a := rotl (v t).a 5 + mix t (v t).b (v t).c (v t).d + (v t).e +
            (if t < 20 then 0x5a827999 else if t < 40 then 0x6ed9eba1 else if t < 60 then 0x8f1bbcdc else 0xca62c1d6) + w t
          b := (v t).a
          c := rotl (v t).b 30
          d := (v t).c
          e := (v t).d } :=
  ⟨List.replicate 64 0, fun _ => 0, zeroRounds, by decide, by decide, by decide, rfl, fun _ _ => rfl⟩

theorem witness_SixteenWordWindowSuffices : blockOfA.length = 64 := by decide

theorem witness_CompressPhaseComputesCompress :
    compressing.rst = false ∧ compressing.phase = .compress ∧ compressing.activeCtx = some compressing.ctx ∧
      compressing.ctx.buf.length = 64 ∧ compressing.trans.ret = some .absorb ∧ compressing.trans.work = none ∧
      compressing.trans.sched = none ∧ compressing.trans.round = none := ⟨rfl, rfl, rfl, by decide, rfl, rfl, rfl, rfl⟩

theorem witness_SequencerRefinesEveryCommand :
    (offering [3, 1, 0] [0xff]).Ready ∧ (offering [3, 1, 0] [0xff]).ctx.buf.length < 64 ∧
      decode (offering [3, 1, 0] [0xff]).cmdIn (offering [3, 1, 0] [0xff]).payIn = .complete (.finalize [0xff]) [] [] :=
  ⟨⟨rfl, rfl⟩, by decide, by decide⟩

/-- First clause, CNT_LO: the low COUNT word is offered. -/
theorem witness_UnfinishedPayloadWaits_cntLo :
    countingLo.Inv ∧ countingLo.rst = false ∧ countingLo.phase = .cntLo ∧ countingLo.cmdIn = [5, 0] := ⟨countingLo_inv, rfl, rfl, rfl⟩

/-- First clause, CNT_HI: the high COUNT word is offered. -/
theorem witness_UnfinishedPayloadWaits_cntHi :
    countingHi.Inv ∧ countingHi.rst = false ∧ countingHi.phase = .cntHi ∧ countingHi.cmdIn = [0] := ⟨countingHi_inv, rfl, rfl, rfl⟩

/-- Second clause: the last byte of the payload is offered, with one more behind it. -/
theorem witness_UnfinishedPayloadWaits_byte :
    lastByte.Inv ∧ lastByte.rst = false ∧ lastByte.phase = .absorb ∧ lastByte.trans.rem = some 1 ∧ (1 : DWord) ≠ 0 ∧
      lastByte.payIn = [0x64, 0x65] := ⟨lastByte_inv, rfl, rfl, rfl, by decide, rfl⟩

/-- Fourth clause: a word is ready to be taken, a byte is, and in IDLE nothing is offered. -/
theorem witness_UnfinishedPayloadWaits_transfers :
    ∃ t u, tick countingLo = .next t ∧ countingLo.cmdReady = true ∧ tick lastByte = .next u ∧ lastByte.inReady = true ∧
      State.reset.Inv ∧ tick State.reset = .next State.reset := ⟨_, _, rfl, rfl, rfl, rfl, reset_inv, rfl⟩

/-- Second clause: two bytes still to come and none offered. -/
theorem witness_UnfinishedPayloadWaits :
    absorbing.Inv ∧ absorbing.rst = false ∧ absorbing.phase = .absorb ∧ absorbing.trans.rem = some 2 ∧ (2 : DWord) ≠ 0 ∧
      absorbing.payIn = [] := ⟨absorbing_inv, rfl, rfl, rfl, by decide, rfl⟩

/-- Third clause: the payload is complete. -/
theorem witness_UnfinishedPayloadWaits_done :
    ∃ t, absorbed.rst = false ∧ absorbed.phase = .absorb ∧ absorbed.trans.rem = some 0 ∧ step absorbed = .next t :=
  ⟨_, rfl, rfl, rfl, rfl⟩

theorem witness_BlocksAreIndependent : ∃ sys, systemStep 1 twoBlocks = .next sys := ⟨_, rfl⟩

theorem witness_SecondHostIsRefused : twoBlocks[0]? = some { host := 7, block := State.reset } ∧ (7 : Nat) ≠ 8 := ⟨rfl, by decide⟩

end Sys2Proof.Tests
end

section
/-!
Rotation (spec/00_scope.md R8): the model's `rotl` is the library's left rotation, so its bits are the library's.
-/
namespace Sys2Proof.Machine

theorem rotl_eq_rotateLeft (x : Word) {n : Nat} (hn : n < 32) : rotl x n = x.rotateLeft n :=
  (BitVec.rotateLeft_eq_rotateLeftAux_of_lt hn).symm

/-- The bits shifted out at the top come back at the bottom. -/
theorem getLsbD_rotl_of_lt (x : Word) {n i : Nat} (hn : n < 32) (hi : i < n) :
    (rotl x n).getLsbD i = x.getLsbD (32 - n + i) := by
  rw [rotl_eq_rotateLeft x hn, BitVec.getLsbD_rotateLeft_of_le hn, decide_eq_true hi, cond_true]

theorem getLsbD_rotl_of_ge (x : Word) {n i : Nat} (hn : n < 32) (hni : n ≤ i) (hi : i < 32) :
    (rotl x n).getLsbD i = x.getLsbD (i - n) := by
  rw [rotl_eq_rotateLeft x hn, BitVec.getLsbD_rotateLeft_of_le hn, decide_eq_false (Nat.not_lt.mpr hni), cond_false,
    decide_eq_true hi, Bool.true_and]

theorem getLsbD_rotl (x : Word) {n i : Nat} (hn : n < 32) (hi : i < 32) :
    (rotl x n).getLsbD i = x.getLsbD ((i + 32 - n) % 32) := by
  rcases Nat.lt_or_ge i n with hlt | hge
  · have hidx : (i + 32 - n) % 32 = 32 - n + i := by omega
    rw [getLsbD_rotl_of_lt x hn hlt, hidx]
  · have hidx : (i + 32 - n) % 32 = i - n := by omega
    rw [getLsbD_rotl_of_ge x hn hge hi, hidx]

/-- Settles O50, by whether bit i comes from the right shift (i < n) or from the left shift (n ≤ i). -/
theorem rotlRotatesLeft : Obligations.RotlRotatesLeft :=
  fun x _ _ hn _ hi => getLsbD_rotl x hn hi

end Sys2Proof.Machine
end

section
/-!
What each step of the reference sequencer can answer with a next state, said once per phase (spec/30_encoding.md R71-R75,
spec/41_update.md R145, spec/40_compression.md R112, spec/42_finalize.md R172, spec/43_digest_encoding.md R199).
-/
namespace Sys2Proof.Machine

theorem seqIdle_next {s t : State} (h : seqIdle s = .next t) :
    (s.cmdIn = [] ∧ t = s) ∨
      ∃ w ws, s.cmdIn = w :: ws ∧
        ((decodeOp w = none ∧ t = State.raiseIllegal w { s with cmdIn := ws }) ∨
          (decodeOp w = some .clear ∧ t = clearEffect { s with cmdIn := ws }) ∨
          ∃ op, op ≠ .clear ∧ decodeOp w = some op ∧ t = State.beginCommand op { s with cmdIn := ws }) := by
  unfold seqIdle at h
  split at h
  · next hc => cases h; exact .inl ⟨hc, rfl⟩
  · next w ws hc =>
    refine .inr ⟨w, ws, hc, ?_⟩
    split at h
    · next hd => cases h; exact .inl ⟨hd, rfl⟩
    · next hd => cases h; exact .inr (.inl ⟨hd, rfl⟩)
    all_goals next hd => cases h; exact .inr (.inr ⟨_, by decide, hd, rfl⟩)

theorem seqCntLo_next {s t : State} (h : seqCntLo s = .next t) :
    (s.cmdIn = [] ∧ t = s) ∨
      ∃ w ws, s.cmdIn = w :: ws ∧
        t = { s with cmdIn := ws, phase := .cntHi, trans := { s.trans with cntLo := some w } } := by
  unfold seqCntLo at h
  split at h
  · next hc => cases h; exact .inl ⟨hc, rfl⟩
  · next w ws hc => cases h; exact .inr ⟨w, ws, hc, rfl⟩

theorem seqCntHi_next {s t : State} (h : seqCntHi s = .next t) :
    (s.cmdIn = [] ∧ t = s) ∨
      ∃ hi ws lo c, s.cmdIn = hi :: ws ∧ s.trans.cntLo = some lo ∧ s.activeCtx = some c ∧
        t = State.setActive { c with len := c.len + countOf lo hi }
          { s with
            cmdIn := ws, phase := .absorb, trans := { s.trans with cntLo := none, rem := some (countOf lo hi) } } := by
  unfold seqCntHi at h
  split at h
  · next hc => cases h; exact .inl ⟨hc, rfl⟩
  · next hi ws hc =>
    split at h
    · next lo c hlo hact => cases h; exact .inr ⟨hi, ws, lo, c, hc, hlo, hact, rfl⟩
    · cases h

theorem seqAbsorb_next {s t : State} (h : seqAbsorb s = .next t) :
    ∃ r c, s.trans.rem = some r ∧ s.activeCtx = some c ∧
      ((r = 0 ∧ t = seqPayloadDone s) ∨ (r ≠ 0 ∧ s.payIn = [] ∧ t = s) ∨
        (r ≠ 0 ∧ ∃ b bs, s.payIn = b :: bs ∧ t = seqTakeByte b r c { s with payIn := bs })) := by
  unfold seqAbsorb at h
  split at h
  · next r c hr hact =>
    refine ⟨r, c, hr, hact, ?_⟩
    split at h
    · next h0 => cases h; exact .inl ⟨h0, rfl⟩
    · next h0 =>
      split at h
      · next hp => cases h; exact .inr (.inl ⟨h0, hp, rfl⟩)
      · next b bs hp => cases h; exact .inr (.inr ⟨h0, b, bs, hp, rfl⟩)
  · cases h

/-- Step 0 loads, steps 1..80 run a round each, step 81 adds and returns (R112). -/
theorem seqCompress_next {s t : State} (h : seqCompress s = .next t) :
    ∃ c ret, s.activeCtx = some c ∧ s.trans.ret = some ret ∧
      ((s.trans.work = none ∧ s.trans.sched = none ∧ s.trans.round = none ∧
          t = { s with
            trans := { s.trans with
              work := some (loadWork c.h), sched := some (blockWords (memRead c.buf 0 64)), round := some 0 } }) ∨
        (∃ v w w' k, s.trans.work = some v ∧ s.trans.sched = some w ∧ s.trans.round = some k ∧
          w' = (if k < 16 then w else w ++ [scheduleWord w k]) ∧
          t = { s with
            trans := { s.trans with
              work := some (roundStep k (w'.getD k 0) v), sched := some w',
              round := if k < 79 then some (k + 1) else none } }) ∨
        (∃ v w, s.trans.work = some v ∧ s.trans.sched = some w ∧ s.trans.round = none ∧
          t = State.setActive { c with h := addWork c.h v, buf := [] }
            { s with
              phase := ret.phase, trans := { s.trans with work := none, sched := none, ret := none } })) := by
  unfold seqCompress at h
  split at h
  · next c ret hact hret =>
    refine ⟨c, ret, hact, hret, ?_⟩
    split at h
    · next hv hw hk => cases h; exact .inl ⟨hv, hw, hk, rfl⟩
    · next v w k hv hw hk => cases h; exact .inr (.inl ⟨v, w, _, k, hv, hw, hk, rfl, rfl⟩)
    · next v w hv hw hk => cases h; exact .inr (.inr ⟨v, w, hv, hw, hk, rfl⟩)
    · cases h
  · cases h

/-- The terminator, with a compression of its own or not, the length field, and the end (R172). -/
theorem seqPad_next {s t : State} (h : seqPad s = .next t) :
    ∃ c, s.activeCtx = some c ∧
      ((s.trans.pad = some .terminator ∧ 56 < (c.buf ++ [0x80]).length ∧
          t = seqPadCompress c (zeroFill (c.buf ++ [0x80]) 64) .lengthField s) ∨
        (s.trans.pad = some .terminator ∧ (c.buf ++ [0x80]).length ≤ 56 ∧
          t = State.setActive { c with buf := c.buf ++ [0x80] }
            { s with trans := { s.trans with pad := some .lengthField } }) ∨
        (s.trans.pad = some .lengthField ∧
          t = seqPadCompress c (memWrite (zeroFill c.buf 56) 56 (bytesBe64 (bitLength c.len))) .done s) ∨
        (s.trans.pad = some .done ∧ t = { s with phase := .encode, trans := { s.trans with pad := none } })) := by
  unfold seqPad at h
  split at h
  · next c hpad hact =>
    refine ⟨c, hact, ?_⟩
    simp only [memWrite_length_self] at h
    split at h
    · next hlt => cases h; exact .inl ⟨hpad, hlt, rfl⟩
    · next hge => cases h; exact .inr (.inl ⟨hpad, Nat.le_of_not_lt hge, rfl⟩)
  · next c hpad hact => cases h; exact ⟨c, hact, .inr (.inr (.inl ⟨hpad, rfl⟩))⟩
  · next c hpad hact => cases h; exact ⟨c, hact, .inr (.inr (.inr ⟨hpad, rfl⟩))⟩
  · cases h

/-- The latch, a character, the raw bytes of a word, and the outputs at the last word (R199). -/
theorem seqEncode_next {s t : State} (h : seqEncode s = .next t) :
    ∃ c, s.activeCtx = some c ∧
      ((s.trans.enc = none ∧
          t = { s with
            trans := { s.trans with
              enc := some { shift := hashWord c.h 0, j := 0, m := 0, hexDone := [], rawDone := [] } } }) ∨
        ∃ e, s.trans.enc = some e ∧
          ((e.m < 8 ∧
              t = { s with
                trans := { s.trans with
                  enc := some { e with
                    hexDone := e.hexDone ++ [hexChar (e.shift.extractLsb' 28 4)], shift := rotl e.shift 4,
                    m := e.m + 1 } } }) ∨
            (8 ≤ e.m ∧ e.j < 4 ∧
              t = { s with
                trans := { s.trans with
                  enc := some { e with
                    rawDone := e.rawDone ++ bytesBe32 (hashWord c.h e.j), shift := hashWord c.h (e.j + 1),
                    j := e.j + 1, m := 0 } } }) ∨
            (8 ≤ e.m ∧ 4 ≤ e.j ∧ t = seqPublish (e.rawDone ++ bytesBe32 (hashWord c.h e.j)) e.hexDone s))) := by
  unfold seqEncode at h
  split at h
  · next c henc hact => cases h; exact ⟨c, hact, .inl ⟨henc, rfl⟩⟩
  · next e c henc hact =>
    refine ⟨c, hact, .inr ⟨e, henc, ?_⟩⟩
    split at h
    · next hm => cases h; exact .inl ⟨hm, rfl⟩
    · next hm =>
      dsimp only at h
      split at h
      · next hj => cases h; exact .inr (.inl ⟨Nat.le_of_not_lt hm, hj, rfl⟩)
      · next hj => cases h; exact .inr (.inr ⟨Nat.le_of_not_lt hm, Nat.le_of_not_lt hj, rfl⟩)
  · cases h

end Sys2Proof.Machine
end

section
/-!
ERR along the steps (spec/10_state.md R34): out of reset no step of the sequencer and no command clears it.
-/
namespace Sys2Proof.Machine

@[simp] theorem seqPayloadDone_err (s : State) : (seqPayloadDone s).status.err = s.status.err := by
  unfold seqPayloadDone; split <;> rfl
@[simp] theorem seqTakeByte_status (b : Byte) (r : DWord) (c : Ctx) (s : State) :
    (seqTakeByte b r c s).status = s.status := by
  unfold seqTakeByte; dsimp only; split <;> simp
@[simp] theorem seqPadCompress_status (c : Ctx) (buf : List Byte) (next : PadStep) (s : State) :
    (seqPadCompress c buf next s).status = s.status := by simp [seqPadCompress]
@[simp] theorem seqPublish_err (raw hex : List Byte) (s : State) : (seqPublish raw hex s).status.err = s.status.err := by
  unfold seqPublish; split <;> rfl

/-- Out of reset a step of the sequencer keeps a set ERR, phase by phase. -/
theorem tick_keeps_err {s t : State} (hr : s.rst = false) (he : s.status.err = true) (h : tick s = .next t) :
    t.status.err = true := by
  cases hp : s.phase with
  | idle =>
    rw [tick_idle ⟨hr, hp⟩] at h
    obtain ⟨-, rfl⟩ | ⟨w, ws, -, ⟨-, rfl⟩ | ⟨-, rfl⟩ | ⟨op, -, -, rfl⟩⟩ := seqIdle_next h <;> simp [he]
  | cntLo =>
    rw [tick_cntLo hr hp] at h
    obtain ⟨-, rfl⟩ | ⟨w, ws, -, rfl⟩ := seqCntLo_next h <;> simp [he]
  | cntHi =>
    rw [tick_cntHi hr hp] at h
    obtain ⟨-, rfl⟩ | ⟨hi, ws, lo, c, -, -, -, rfl⟩ := seqCntHi_next h <;> simp [he]
  | absorb =>
    rw [tick_absorb hr hp] at h
    obtain ⟨r, c, -, -, ⟨-, rfl⟩ | ⟨-, -, rfl⟩ | ⟨-, b, bs, -, rfl⟩⟩ := seqAbsorb_next h <;> simp [he]
  | compress =>
    rw [tick_compress hr hp] at h
    obtain ⟨c, ret, -, -, ⟨-, -, -, rfl⟩ | ⟨v, w, w', k, -, -, -, -, rfl⟩ | ⟨v, w, -, -, -, rfl⟩⟩ :=
      seqCompress_next h <;> simp [he]
  | pad =>
    rw [tick_pad hr hp] at h
    obtain ⟨c, -, ⟨-, -, rfl⟩ | ⟨-, -, rfl⟩ | ⟨-, rfl⟩ | ⟨-, rfl⟩⟩ := seqPad_next h <;> simp [he]
  | encode =>
    rw [tick_encode hr hp] at h
    obtain ⟨c, -, ⟨-, rfl⟩ | ⟨e, -, ⟨-, rfl⟩ | ⟨-, -, rfl⟩ | ⟨-, -, rfl⟩⟩⟩ := seqEncode_next h <;> simp [he]
  | halt w => simp [tick_halt hr hp] at h

/-- Out of reset a command writes neither ERR, the phase between commands, `rst` nor the ports (R31, R33-R36). -/
theorem exec_frame {i : Instr} {s t : State} (hr : s.rst = false) (h : exec i s = .next t) :
    t.status.err = s.status.err ∧ t.phase = s.phase ∧ t.rst = s.rst ∧ t.cmdIn = s.cmdIn ∧ t.payIn = s.payIn ∧
      (t.status.busy = false ∨ t.status.busy = s.status.busy) ∧ (t.trans = Transient.empty ∨ t.trans = s.trans) := by
  rw [exec_eq] at h
  obtain ⟨hr', -⟩ | ⟨⟨-, hp⟩, rfl⟩ | ⟨-, -, rfl⟩ := whenAccepted_next h
  · rw [hr] at hr'; cases hr'
  · obtain ⟨hphase, htrans, hrst, hcmd, hpay, herr, hbusy⟩ := effectOf_frame i s
    exact ⟨herr, hphase.trans hp.symm, hrst, hcmd, hpay, .inl hbusy, .inl htrans⟩
  · exact ⟨rfl, rfl, rfl, rfl, rfl, .inr rfl, .inr rfl⟩

/-- Settles O20: a command out of reset is its effect, or the word is held. -/
theorem commandsLeaveErrPhaseAndPorts : Obligations.CommandsLeaveErrPhaseAndPorts :=
  fun _ _ _ hr h => exec_frame hr h

/-- Settles O18: out of reset a step is a step of the sequencer or a whole command, and neither clears ERR. -/
theorem onlyResetClearsErr : Obligations.OnlyResetClearsErr := by
  intro s t h hset hclear
  by_contra hr
  have hr : s.rst = false := by simpa using hr
  have hkept : t.status.err = true := by
    obtain hs | ⟨i, ws, bs, -, -, hs⟩ := step_cases s
    · exact tick_keeps_err hr hset (hs ▸ h)
    · have hframe := exec_frame (s := { s with cmdIn := ws, payIn := bs }) hr (hs.symm.trans h)
      obtain ⟨herr, -⟩ := hframe
      exact herr.trans hset
  rw [hkept] at hclear
  cases hclear

end Sys2Proof.Machine
end

section
/-!
Reset's values (spec/10_state.md R40) and DVALID (R32): at acceptance of a command word, at a command's completion, in reset.
-/
namespace Sys2Proof.Machine

/-- Settles O1: the reset state is written out field by field. -/
theorem resetLeavesTheStatedValues : Obligations.ResetLeavesTheStatedValues :=
  ⟨rfl, rfl, rfl, rfl, rfl, rfl, rfl, rfl, rfl, rfl, rfl, rfl, rfl, rfl, rfl⟩

theorem tick_clear_word {s : State} {w : Word} {ws : List Word} (hs : s.Ready) (hc : s.cmdIn = w :: ws)
    (hd : decodeOp w = some .clear) : tick s = .next (clearEffect { s with cmdIn := ws }) := by
  rw [tick_idle hs]
  simp only [seqIdle, hc, hd]

theorem tick_payload_word {s : State} {w : Word} {ws : List Word} {op : Op} (hs : s.Ready) (hc : s.cmdIn = w :: ws)
    (hd : decodeOp w = some op) (hop : op ≠ .clear) :
    tick s = .next (State.beginCommand op { s with cmdIn := ws }) := by
  rw [tick_idle hs]
  cases op with
  | clear => exact absurd rfl hop
  | _ => simp only [seqIdle, hc, hd]

/-- A ready block runs any command to its end (10_state.md R33). -/
theorem exec_ready {s : State} (hs : s.Ready) (i : Instr) : exec i s = .next (effectOf i s) := by
  rw [exec_eq, whenAccepted_ready hs]

theorem step_rst {s : State} (h : s.rst = true) : step s = .next s.applyReset := by
  obtain hs | ⟨_, _, _, hready, -, -⟩ := step_cases s
  · rw [hs, tick_rst h]
  · rw [hready.1] at h; cases h

/-- Settles O21, clause by clause: what the accepted word, the command's effect and reset write to DVALID. -/
theorem dvalidFollowsFinalizeAndEval : Obligations.DvalidFollowsFinalizeAndEval := by
  refine ⟨?_, ?_, ?_, ?_, ?_⟩
  · intro s t ws hs hword ht
    obtain hc | hc := hword
    · cases (tick_payload_word hs hc (op := .finalize) (by decide) (by decide)).symm.trans ht
      exact ⟨rfl, rfl⟩
    · cases (tick_payload_word hs hc (op := .eval) (by decide) (by decide)).symm.trans ht
      exact ⟨rfl, rfl⟩
  · exact fun p s hs => ⟨_, _, exec_ready hs (.finalize p), rfl, exec_ready hs (.eval p), rfl⟩
  · intro s t ws hs hword ht
    obtain hc | hc := hword
    · cases (tick_clear_word hs hc (by decide)).symm.trans ht
      rfl
    · cases (tick_payload_word hs hc (op := .update) (by decide) (by decide)).symm.trans ht
      rfl
  · exact fun p s hs => ⟨_, _, exec_ready hs .clear, rfl, exec_ready hs (.update p), rfl⟩
  · exact fun s hr => ⟨_, step_rst hr, rfl⟩

end Sys2Proof.Machine
end

section
/-!
The digest context is not observable without a FINALIZE (spec/10_state.md R38, spec/40_compression.md R113): two runs that differ in
the context alone stay so.
-/
namespace Sys2Proof.Machine

theorem effectOf_ready {s : State} (hs : s.Ready) (i : Instr) : (effectOf i s).Ready := by
  obtain ⟨hphase, -, hrst, -⟩ := effectOf_frame i s
  exact ⟨hrst.trans hs.1, hphase⟩

/-- A FINALIZE apart, what a command does to all but the context does not depend on the context. -/
theorem effectOf_other_ctx {i : Instr} (hi : i.op ≠ .finalize) (s : State) (c : Ctx) :
    ∃ c', effectOf i { s with ctx := c } = { effectOf i s with ctx := c' } := by
  cases i with
  | clear => exact ⟨_, rfl⟩
  | update p => exact ⟨_, rfl⟩
  | finalize p => exact absurd rfl hi
  | eval p => exact ⟨_, rfl⟩

theorem execAll_other_ctx {is : List Instr} (his : ∀ i ∈ is, i.op ≠ .finalize) {s : State} (hs : s.Ready) (c : Ctx) :
    ∃ t c', t.Ready ∧ execAll is s = .next t ∧ execAll is { s with ctx := c } = .next { t with ctx := c' } := by
  induction is generalizing s c with
  | nil => exact ⟨s, c, hs, rfl, rfl⟩
  | cons i is ih =>
    obtain ⟨hi, his⟩ := List.forall_mem_cons.1 his
    obtain ⟨c₁, h₁⟩ := effectOf_other_ctx hi s c
    have hs' : State.Ready { s with ctx := c } := hs
    simp only [execAll, exec_ready hs, exec_ready hs', h₁]
    exact ih his (effectOf_ready hs i) c₁

/-- In IDLE no output and no ready signal reads the context. -/
theorem sameOutputs_other_ctx {t : State} (ht : t.Ready) (c : Ctx) : t.SameOutputs { t with ctx := c } := by
  refine ⟨rfl, rfl, rfl, rfl, ?_⟩
  simp [State.inReady, ht.2]

/-- Settles O49, by induction over the commands. -/
theorem contextIsNotObservable : Obligations.ContextIsNotObservable := by
  intro is s c hs his
  obtain ⟨t, c', ht, hrun, hrun'⟩ := execAll_other_ctx his hs c
  exact ⟨t, _, hrun, hrun', sameOutputs_other_ctx ht c'⟩

end Sys2Proof.Machine
end

section
/-!
The serializer word by word and character by character (spec/43_digest_encoding.md R190-R192), and the encoder's registers along R199.
-/
namespace Sys2Proof.Machine

theorem rotl_zero (x : Word) : rotl x 0 = x := by
  simp [rotl, BitVec.ushiftRight_eq_zero]

/-- Rotations add up, a whole turn included (00_scope.md R8): bit i comes from bit i - (a + b) modulo 32. -/
theorem rotl_rotl (x : Word) {a b : Nat} (h : a + b ≤ 32) : rotl (rotl x a) b = rotl x (a + b) := by
  ext i hi
  simp only [rotl, BitVec.getElem_or, BitVec.getElem_shiftLeft, BitVec.getElem_ushiftRight, BitVec.getLsbD_or,
    BitVec.getLsbD_shiftLeft, BitVec.getLsbD_ushiftRight]
  grind

theorem extractLsb'_of_extractLsb' {w : Nat} (x : BitVec w) (a n : Nat) {b k : Nat} (h : b + k ≤ n) :
    (x.extractLsb' a n).extractLsb' b k = x.extractLsb' (a + b) k := by
  ext i hi
  simp only [BitVec.getElem_extractLsb', BitVec.getLsbD_extractLsb']
  rw [decide_eq_true (by omega), Bool.true_and, Nat.add_assoc]

/-- After m four-bit rotations the top nibble is nibble m of the word, counted from the top. -/
theorem extractLsb'_rotl_top (x : Word) {m : Nat} (hm : m < 8) :
    (rotl x (4 * m)).extractLsb' 28 4 = x.extractLsb' (28 - 4 * m) 4 := by
  ext i hi
  rw [BitVec.getElem_extractLsb', BitVec.getElem_extractLsb', getLsbD_rotl_of_ge x (by omega) (by omega) (by omega)]
  congr 1
  omega

@[simp] theorem serializeRaw_length (h : Hash) : (serializeRaw h).length = 20 := rfl

theorem serializeRaw_take_succ (h : Hash) {j : Nat} (hj : j ≤ 4) :
    (serializeRaw h).take (4 * (j + 1)) = (serializeRaw h).take (4 * j) ++ bytesBe32 (hashWord h j) := by
  interval_cases j <;> rfl

/-- The eight characters of a word are its nibbles from the top (R191, R192). -/
theorem hexOfBytes_bytesBe32 (x : Word) :
    hexOfBytes (bytesBe32 x) = (List.range 8).map fun m => hexChar (x.extractLsb' (28 - 4 * m) 4) := by
  simp [hexOfBytes, bytesBe32, hexPair, List.range_succ, extractLsb'_of_extractLsb']

theorem serializeHex_word (h : Hash) {j : Nat} (hj : j ≤ 4) :
    ((serializeHex h).drop (8 * j)).take 8 = hexOfBytes (bytesBe32 (hashWord h j)) := by
  interval_cases j <;> rfl

theorem serializeHex_getElem? (h : Hash) {j m : Nat} (hj : j ≤ 4) (hm : m < 8) :
    (serializeHex h)[8 * j + m]? = some (hexChar ((hashWord h j).extractLsb' (28 - 4 * m) 4)) := by
  rw [← List.getElem?_drop, ← List.getElem?_take_of_lt hm, serializeHex_word h hj, hexOfBytes_bytesBe32]
  simp [hm]

theorem Encoder.agrees_latch (h : Hash) :
    Encoder.Agrees { shift := hashWord h 0, j := 0, m := 0, hexDone := [], rawDone := [] } h :=
  ⟨by simp, by simp, (rotl_zero _).symm, rfl, rfl⟩

/-- A character: the shift register's top nibble is the next one of the word. -/
theorem Encoder.Agrees.character {e : Encoder} {h : Hash} (he : e.Agrees h) (hm : e.m < 8) :
    Encoder.Agrees
      { e with hexDone := e.hexDone ++ [hexChar (e.shift.extractLsb' 28 4)], shift := rotl e.shift 4, m := e.m + 1 } h := by
  obtain ⟨hj, -, hshift, hraw, hhex⟩ := he
  refine ⟨hj, hm, ?_, hraw, ?_⟩
  · rw [hshift]
    exact rotl_rotl _ (by omega)
  · dsimp only
    rw [hhex, hshift, extractLsb'_rotl_top _ hm, ← Nat.add_assoc, List.take_add_one, serializeHex_getElem? h hj hm]
    rfl

/-- The end of a word other than the last. -/
theorem Encoder.Agrees.nextWord {e : Encoder} {h : Hash} (he : e.Agrees h) (hm : 8 ≤ e.m) (hlt : e.j < 4) :
    Encoder.Agrees
      { e with
        rawDone := e.rawDone ++ bytesBe32 (hashWord h e.j), shift := hashWord h (e.j + 1), j := e.j + 1, m := 0 } h := by
  obtain ⟨hj, hm', -, hraw, hhex⟩ := he
  refine ⟨hlt, Nat.zero_le 8, (rotl_zero _).symm, ?_, ?_⟩
  · rw [serializeRaw_take_succ h hj, ← hraw]
  · dsimp only
    rw [hhex]
    congr 1
    omega

/-- The end of the last word: both outputs are complete. -/
theorem Encoder.Agrees.complete {e : Encoder} {h : Hash} (he : e.Agrees h) (hm : 8 ≤ e.m) (hge : 4 ≤ e.j) :
    e.rawDone ++ bytesBe32 (hashWord h e.j) = serializeRaw h ∧ e.hexDone = serializeHex h := by
  obtain ⟨hj, hm', -, hraw, hhex⟩ := he
  have hj4 : e.j = 4 := Nat.le_antisymm hj hge
  have hm8 : e.m = 8 := Nat.le_antisymm hm' hm
  constructor
  · rw [hraw, ← serializeRaw_take_succ h hj, hj4]
    rfl
  · rw [hhex, hj4, hm8]
    exact List.take_of_length_le (by simp [serializeHex])

end Sys2Proof.Machine
end

section
/-!
LEN and BUFLEN of a digest context (spec/10_state.md R23-R25, spec/42_finalize.md R174): between commands and while payload is taken.
64 divides 2^64, so LEN's wrap does not show modulo 64.
-/
namespace Sys2Proof.Machine

theorem Ctx.initial_settled : Ctx.initial.Settled := ⟨by decide, by decide⟩

theorem toNat_add_mod_64 (x y : DWord) : (x + y).toNat % 64 = (x.toNat + y.toNat) % 64 := by
  rw [BitVec.toNat_add]
  omega

@[simp] theorem Ctx.absorbBlocks_len (c : Ctx) (p : List Byte) : (c.absorbBlocks p).len = c.len := rfl

@[simp] theorem Ctx.absorbBlocks_buf_length (c : Ctx) (p : List Byte) : (c.absorbBlocks p).buf.length = p.length % 64 := by
  simp only [Ctx.absorbBlocks, List.length_drop]
  omega

/-- LEN takes COUNT in, in every branch (41_update.md R141). -/
@[simp] theorem Ctx.update_len (c : Ctx) (p : List Byte) : (c.update p).len = c.len + payloadCount p := by
  simp only [Ctx.update]
  split
  · split <;> rfl
  · rfl

/-- BUFLEN after UPDATE (41_update.md R142-R144): the bytes that fill no whole block. -/
theorem Ctx.update_buf_length {c : Ctx} (h : c.buf.length < 64) (p : List Byte) :
    (c.update p).buf.length = (c.buf.length + p.length) % 64 := by
  simp only [Ctx.update, memWrite_length_self, List.length_append, List.length_take]
  split
  · split
    · rw [Ctx.absorbBlocks_buf_length, List.length_drop]
      omega
    · simp only [List.length_append, List.length_take]
      omega
  · rw [Ctx.absorbBlocks_buf_length]
    omega

theorem payloadCount_mod_64 (p : List Byte) : (payloadCount p).toNat % 64 = p.length % 64 := by
  rw [payloadCount, BitVec.toNat_ofNat]
  omega

theorem Ctx.Settled.update {c : Ctx} (h : c.Settled) (p : List Byte) : (c.update p).Settled := by
  obtain ⟨hlt, hlen⟩ := h
  have hcount := payloadCount_mod_64 p
  refine ⟨?_, ?_⟩ <;> rw [Ctx.update_buf_length hlt]
  · omega
  · rw [Ctx.update_len, toNat_add_mod_64]
    omega

/-- Taking COUNT in: nothing of the payload is absorbed yet. -/
theorem Ctx.Settled.absorbing {c : Ctx} (h : c.Settled) (n : DWord) : Ctx.Absorbing { c with len := c.len + n } n := by
  obtain ⟨hlt, hlen⟩ := h
  rw [Ctx.Absorbing, BitVec.add_sub_cancel, hlen, Nat.mod_eq_of_lt hlt]

theorem Ctx.Absorbing.takeByte {c : Ctx} {r : DWord} (h : c.Absorbing r) (b : Byte) :
    Ctx.Absorbing { c with buf := c.buf ++ [b] } (r - 1) := by
  have hstep : c.len - (r - 1) = (c.len - r) + 1 := by bv_omega
  have hone : (1 : DWord).toNat = 1 := rfl
  rw [Ctx.Absorbing] at h
  rw [Ctx.Absorbing, hstep, toNat_add_mod_64, hone, List.length_append, List.length_singleton]
  omega

/-- A compression takes a whole block out of BUF. -/
theorem Ctx.Absorbing.emptyBuf {c : Ctx} {r : DWord} (h : c.Absorbing r) (hfull : c.buf.length = 64) (g : Hash) :
    Ctx.Absorbing { c with h := g, buf := [] } r := by
  rw [Ctx.Absorbing, hfull, Nat.mod_self] at h
  exact h

/-- With no byte to come the context is settled. -/
theorem Ctx.Absorbing.settled {c : Ctx} (h : c.Absorbing 0) (hlt : c.buf.length < 64) : c.Settled := by
  have hall : c.len - 0 = c.len := BitVec.sub_zero c.len
  rw [Ctx.Absorbing, hall, Nat.mod_eq_of_lt hlt] at h
  exact ⟨hlt, h⟩

theorem zeroFill_length {buf : List Byte} {n : Nat} (h : buf.length ≤ n) : (zeroFill buf n).length = n := by
  simp only [zeroFill, memWrite_length_self, List.length_append, List.length_replicate]
  omega

end Sys2Proof.Machine
end

section
/-!
The invariant, part by part (spec/10_state.md R25-R36, R41): what the updates of the state keep of STATUS, the outputs and the registers of
a running command, and the invariant at both ends of a command.
-/
namespace Sys2Proof.Machine

theorem State.Running.op_ne_none {s : State} (h : s.Running) : s.trans.op ≠ none := by
  obtain ⟨hop, -⟩ | ⟨hop, -⟩ | ⟨hop, -⟩ := h <;> simp [hop]

/-- Writing the active context keeps a running command's registers: EVAL's writes go to its own context and
leave the block's settled one (R36). -/
theorem State.Running.setActive {s : State} {c : Ctx} (h : s.Running) : (s.setActive c).Running := by
  obtain ⟨hop, hpriv⟩ | ⟨hop, hpriv, hdv⟩ | ⟨hop, -, hdv, hset⟩ := h
  · exact .inl ⟨by simp [hop], by simp [State.setActive, hop, hpriv]⟩
  · exact .inr (.inl ⟨by simp [hop], by simp [State.setActive, hop, hpriv], by simp [hdv]⟩)
  · exact .inr (.inr ⟨by simp [hop], by simp [State.setActive, hop], by simp [hdv],
      by rwa [State.setActive_ctx_of_eval c s hop]⟩)

@[simp] theorem State.setActive_noCompression (c : Ctx) (s : State) :
    (s.setActive c).trans.NoCompression ↔ s.trans.NoCompression := by simp [Transient.NoCompression]

@[simp] theorem State.setActive_compressing (c : Ctx) (s : State) :
    (s.setActive c).trans.Compressing ↔ s.trans.Compressing := by simp [Transient.Compressing]

@[simp] theorem State.setActive_digesting (c : Ctx) (s : State) : (s.setActive c).Digesting ↔ s.Digesting := by
  simp [State.Digesting]

/-- With no compression in progress the next step of COMPRESS is step 0 (40_compression.md R112). -/
theorem Transient.NoCompression.compressing {t : Transient} (h : t.NoCompression) : t.Compressing := by
  obtain ⟨hwork, hsched, hround, -⟩ := h
  exact .inl ⟨hwork, hsched, hround⟩

theorem State.OutputsAgree.congr {s t : State} (h : s.OutputsAgree) (hdvalid : t.status.dvalid = s.status.dvalid)
    (hdigest : t.digest = s.digest) (hhex : t.hex = s.hex) : t.OutputsAgree := by
  unfold State.OutputsAgree
  rw [hdvalid, hdigest, hhex]
  exact h

theorem State.Inv.busy_eq {s : State} (h : s.Inv) : s.status.busy = s.phase.running := h.1.1

theorem State.Inv.err_eq {s : State} (h : s.Inv) : s.status.err = s.phase.halted := h.1.2

theorem State.Inv.outputsAgree {s : State} (h : s.Inv) : s.OutputsAgree := h.2.1

theorem State.Inv.phaseAgrees {s : State} (h : s.Inv) : s.PhaseAgrees := h.2.2

theorem Phase.halted_of_running {p : Phase} (h : p.running = true) : p.halted = false := by
  cases p with
  | halt w => cases h
  | _ => rfl

theorem State.Inv.err_of_running {s : State} (h : s.Inv) (hs : s.phase.running = true) : s.status.err = false :=
  h.err_eq.trans (Phase.halted_of_running hs)

/-- Within a command STATUS and the outputs do not move, so the invariant turns on the next phase's registers. -/
theorem State.Inv.within {s t : State} (h : s.Inv) (hs : s.phase.running = true) (ht : t.phase.running = true)
    (hstatus : t.status = s.status) (hdigest : t.digest = s.digest) (hhex : t.hex = s.hex) (hphase : t.PhaseAgrees) :
    t.Inv := by
  refine ⟨⟨?_, ?_⟩, h.outputsAgree.congr (by rw [hstatus]) hdigest hhex, hphase⟩
  · rw [hstatus, h.busy_eq, hs, ht]
  · rw [hstatus, h.err_of_running hs, Phase.halted_of_running ht]

theorem State.Inv.of_idle {s : State} (h : s.Inv) (hp : s.phase = .idle) :
    s.status.busy = false ∧ s.status.err = false ∧ s.OutputsAgree ∧ s.ctx.Settled ∧ s.trans = Transient.empty := by
  obtain ⟨⟨hbusy, herr⟩, hout, hphase⟩ := h
  rw [hp] at hbusy herr
  simp only [State.PhaseAgrees, hp] at hphase
  exact ⟨hbusy, herr, hout, hphase⟩

theorem State.applyReset_inv (s : State) : s.applyReset.Inv := ⟨⟨rfl, rfl⟩, trivial, Ctx.initial_settled, rfl⟩

/-- The end of a command. -/
theorem State.finishCommand_inv {s : State} (herr : s.status.err = false) (hout : s.OutputsAgree) (hset : s.ctx.Settled) :
    s.finishCommand.Inv :=
  ⟨⟨rfl, herr⟩, hout, hset, rfl⟩

/-- 43_digest_encoding.md R196: the two outputs of one hash. -/
theorem State.writeOutputs_outputsAgree (h : Hash) (s : State) :
    (s.writeOutputs (serializeRaw h) (serializeHex h)).OutputsAgree := ⟨rfl, rfl⟩

/-- The beginning of a command with a payload. -/
theorem State.beginCommand_inv {s : State} {op : Op} (hop : op ≠ .clear) (herr : s.status.err = false)
    (hout : s.OutputsAgree) (hset : s.ctx.Settled) : (s.beginCommand op).Inv := by
  refine ⟨⟨rfl, herr⟩, ?_, ?_⟩
  · cases op with
    | clear => exact absurd rfl hop
    | update => exact hout
    | finalize => trivial
    | eval => trivial
  · refine ⟨?_, ⟨rfl, rfl, rfl, rfl⟩, rfl, rfl, rfl, rfl, ?_⟩
    · cases op with
      | clear => exact absurd rfl hop
      | update => exact .inl ⟨rfl, rfl⟩
      | finalize => exact .inr (.inl ⟨rfl, rfl, rfl⟩)
      | eval => exact .inr (.inr ⟨rfl, rfl, rfl, hset⟩)
    · cases op with
      | clear => exact absurd rfl hop
      | update => exact ⟨s.ctx, rfl, hset⟩
      | finalize => exact ⟨s.ctx, rfl, hset⟩
      | eval => exact ⟨Ctx.initial, rfl, Ctx.initial_settled⟩

/-- A whole command, run between commands. -/
theorem effectOf_inv {s : State} (herr : s.status.err = false) (hout : s.OutputsAgree) (hset : s.ctx.Settled) (i : Instr) :
    (effectOf i s).Inv := by
  cases i with
  | clear => exact State.finishCommand_inv herr hout Ctx.initial_settled
  | update p => exact State.finishCommand_inv herr hout (hset.update p)
  | finalize p => exact State.finishCommand_inv herr (State.writeOutputs_outputsAgree _ s) Ctx.initial_settled
  | eval p => exact State.finishCommand_inv herr (State.writeOutputs_outputsAgree _ s) hset

end Sys2Proof.Machine
end

section
/-!
Each phase of the reference sequencer keeps the invariant (spec/10_state.md R33).
-/
namespace Sys2Proof.Machine

variable {s t : State}

theorem seqIdle_inv (hs : s.Inv) (hp : s.phase = .idle) (h : seqIdle s = .next t) : t.Inv := by
  obtain ⟨hbusy, herr, hout, hset, htrans⟩ := hs.of_idle hp
  obtain ⟨-, rfl⟩ | ⟨w, ws, -, ⟨-, rfl⟩ | ⟨-, rfl⟩ | ⟨op, hop, -, rfl⟩⟩ := seqIdle_next h
  · exact hs
  · exact ⟨⟨hbusy, rfl⟩, hout, hset, htrans⟩
  · exact effectOf_inv (s := { s with cmdIn := ws }) herr hout hset .clear
  · exact State.beginCommand_inv (s := { s with cmdIn := ws }) hop herr hout hset

theorem seqCntLo_inv (hs : s.Inv) (hp : s.phase = .cntLo) (h : seqCntLo s = .next t) : t.Inv := by
  have hphase := hs.phaseAgrees
  simp only [State.PhaseAgrees, hp] at hphase
  obtain ⟨hrun, hno, -, hrest⟩ := hphase
  obtain ⟨-, rfl⟩ | ⟨w, ws, -, rfl⟩ := seqCntLo_next h
  · exact hs
  · exact hs.within (by rw [hp]; rfl) rfl rfl rfl rfl ⟨hrun, hno, rfl, hrest⟩

theorem seqCntHi_inv (hs : s.Inv) (hp : s.phase = .cntHi) (h : seqCntHi s = .next t) : t.Inv := by
  have hphase := hs.phaseAgrees
  simp only [State.PhaseAgrees, hp] at hphase
  obtain ⟨hrun, hno, -, -, hpad, henc, c, hact, hset⟩ := hphase
  obtain ⟨-, rfl⟩ | ⟨hi, ws, lo, c', -, -, hact', rfl⟩ := seqCntHi_next h
  · exact hs
  · cases hact.symm.trans hact'
    refine hs.within (by rw [hp]; rfl) (by simp [Phase.running]) (by simp) (by simp) (by simp) ?_
    simp only [State.PhaseAgrees, State.setActive_phase]
    exact ⟨State.Running.setActive hrun, (State.setActive_noCompression _ _).2 hno, State.setActive_cntLo _ _,
      (State.setActive_pad _ _).trans hpad, (State.setActive_enc _ _).trans henc, _, _,
      State.activeCtx_setActive _ _ hrun.op_ne_none, State.setActive_rem _ _, hset.1, hset.absorbing _⟩

/-- UPDATE ends with its payload (41_update.md R145). -/
theorem seqPayloadDone_of_update (h : s.trans.op = some .update) : seqPayloadDone s = s.finishCommand := by
  simp only [seqPayloadDone, h]

/-- FINALIZE and EVAL go on to PAD (42_finalize.md R172). -/
theorem seqPayloadDone_of_digesting (h : s.Digesting) :
    seqPayloadDone s = { s with phase := .pad, trans := { s.trans with pad := some .terminator } } := by
  obtain hop | hop := h <;> simp only [seqPayloadDone, hop]

theorem State.Running.update_or_digesting (h : s.Running) :
    (s.trans.op = some .update ∧ s.activeCtx = some s.ctx) ∨ s.Digesting := by
  obtain ⟨hop, -⟩ | ⟨hop, -⟩ | ⟨hop, -⟩ := h
  · exact .inl ⟨hop, by simp only [State.activeCtx, hop]⟩
  · exact .inr (.inl hop)
  · exact .inr (.inr hop)

/-- The byte that fills BUF goes on to COMPRESS (41_update.md R145). -/
theorem seqTakeByte_of_full {c : Ctx} {b : Byte} (r : DWord) (h : (c.buf ++ [b]).length = 64) (s : State) :
    seqTakeByte b r c s =
      State.setActive { c with buf := c.buf ++ [b] }
        { s with phase := .compress, trans := { s.trans with rem := some (r - 1), ret := some .absorb } } := by
  simp only [seqTakeByte, memWrite_length_self, if_pos h, State.setActive]
  split <;> rfl

theorem seqTakeByte_of_not_full {c : Ctx} {b : Byte} (r : DWord) (h : (c.buf ++ [b]).length ≠ 64) (s : State) :
    seqTakeByte b r c s =
      State.setActive { c with buf := c.buf ++ [b] } { s with trans := { s.trans with rem := some (r - 1) } } := by
  simp only [seqTakeByte, memWrite_length_self, if_neg h]

theorem seqAbsorb_inv (hs : s.Inv) (hp : s.phase = .absorb) (h : seqAbsorb s = .next t) : t.Inv := by
  have hbusy : s.phase.running = true := by rw [hp]; rfl
  have hphase := hs.phaseAgrees
  simp only [State.PhaseAgrees, hp] at hphase
  obtain ⟨hrun, hno, hlo, hpad, henc, c, r, hact, hrem, hlt, habs⟩ := hphase
  obtain ⟨r', c', hrem', hact', hcase⟩ := seqAbsorb_next h
  cases hrem.symm.trans hrem'
  cases hact.symm.trans hact'
  obtain ⟨rfl, rfl⟩ | ⟨-, -, rfl⟩ | ⟨-, b, bs, -, rfl⟩ := hcase
  · have hset := habs.settled hlt
    obtain ⟨hop, hown⟩ | hdig := hrun.update_or_digesting
    · cases hact.symm.trans hown
      rw [seqPayloadDone_of_update hop]
      exact State.finishCommand_inv (hs.err_of_running hbusy) hs.outputsAgree hset
    · rw [seqPayloadDone_of_digesting hdig]
      exact hs.within hbusy rfl rfl rfl rfl ⟨hrun, hdig, hno, hlo, henc, hrem, c, hact, .inl ⟨rfl, hset⟩⟩
  · exact hs
  · have hop := hrun.op_ne_none
    by_cases hfull : (c.buf ++ [b]).length = 64
    · rw [seqTakeByte_of_full r hfull]
      refine hs.within hbusy (by simp [Phase.running]) (by simp) (by simp) (by simp) ?_
      simp only [State.PhaseAgrees, State.setActive_phase]
      exact ⟨State.Running.setActive hrun, (State.setActive_compressing _ _).2 hno.compressing,
        (State.setActive_cntLo _ _).trans hlo, (State.setActive_enc _ _).trans henc, _, _,
        State.activeCtx_setActive _ _ hop, State.setActive_rem _ _, hfull,
        .inl ⟨State.setActive_ret _ _, (State.setActive_pad _ _).trans hpad, habs.takeByte b⟩⟩
    · have hlt' : (c.buf ++ [b]).length < 64 := by
        rw [List.length_append, List.length_singleton] at hfull ⊢
        omega
      rw [seqTakeByte_of_not_full r hfull]
      refine hs.within hbusy (by simp [hbusy]) (by simp) (by simp) (by simp) ?_
      simp only [State.PhaseAgrees, State.setActive_phase, hp]
      exact ⟨State.Running.setActive hrun, (State.setActive_noCompression _ _).2 hno,
        (State.setActive_cntLo _ _).trans hlo, (State.setActive_pad _ _).trans hpad,
        (State.setActive_enc _ _).trans henc, _, _, State.activeCtx_setActive _ _ hop, State.setActive_rem _ _, hlt',
        habs.takeByte b⟩

end Sys2Proof.Machine
end

section
/-!
Each phase of the reference sequencer keeps the invariant: COMPRESS, PAD and ENCODE, and the whole step.
-/
namespace Sys2Proof.Machine

variable {s t : State}

/-- Before round k (40_compression.md R112) the schedule holds the words of the rounds so far, the block's 16 at least. -/
theorem Transient.Compressing.of_round {r : Transient} {w : List Word} {k : Nat} (h : r.Compressing)
    (hw : r.sched = some w) (hk : r.round = some k) : k < 80 ∧ w.length = max 16 k := by
  obtain ⟨-, -, hround⟩ | ⟨-, w', k', hw', hk', hlt, hlen⟩ | ⟨-, w', -, hround, -⟩ := h
  · cases hk.symm.trans hround
  · cases hw.symm.trans hw'
    cases hk.symm.trans hk'
    exact ⟨hlt, hlen⟩
  · cases hk.symm.trans hround

/-- Round k leaves the registers before round k + 1, or after the last round before the final addition. -/
theorem Transient.Compressing.nextRound {r : Transient} {w : List Word} {k : Nat} (v : Work) (hlt : k < 80)
    (hlen : w.length = max 16 (k + 1)) :
    Transient.Compressing
      { r with work := some v, sched := some w, round := if k < 79 then some (k + 1) else none } := by
  by_cases hk : k < 79
  · exact .inr (.inl ⟨rfl, w, k + 1, rfl, if_pos hk, by omega, hlen⟩)
  · exact .inr (.inr ⟨rfl, w, rfl, if_neg hk, by omega⟩)

theorem scheduleUpTo_length {w : List Word} {k : Nat} (h : w.length = max 16 k) :
    (if k < 16 then w else w ++ [scheduleWord w k]).length = max 16 (k + 1) := by
  split
  · omega
  · rw [List.length_append, List.length_singleton]
    omega

theorem seqCompress_inv (hs : s.Inv) (hp : s.phase = .compress) (h : seqCompress s = .next t) : t.Inv := by
  have hbusy : s.phase.running = true := by rw [hp]; rfl
  have hphase := hs.phaseAgrees
  simp only [State.PhaseAgrees, hp] at hphase
  obtain ⟨hrun, hcomp, hlo, henc, c, r, hact, hrem, hfull, hret⟩ := hphase
  obtain ⟨c', ret, hact', hret', hcase⟩ := seqCompress_next h
  cases hact.symm.trans hact'
  obtain ⟨-, -, -, rfl⟩ | ⟨v, w, w', k, -, hw, hk, rfl, rfl⟩ | ⟨v, w, -, -, hk, rfl⟩ := hcase
  · have hblock : (blockWords (memRead c.buf 0 64)).length = max 16 0 := by
      rw [blockWords_length, memRead_all hfull, hfull]
      rfl
    refine hs.within hbusy hbusy rfl rfl rfl ?_
    simp only [State.PhaseAgrees, hp]
    exact ⟨hrun, .inr (.inl ⟨rfl, _, 0, rfl, rfl, by omega, hblock⟩), hlo, henc, c, r, hact, hrem, hfull, hret⟩
  · obtain ⟨hlt, hlen⟩ := hcomp.of_round hw hk
    refine hs.within hbusy hbusy rfl rfl rfl ?_
    simp only [State.PhaseAgrees, hp]
    exact ⟨hrun, Transient.Compressing.nextRound _ hlt (scheduleUpTo_length hlen), hlo, henc, c, r, hact, hrem, hfull, hret⟩
  · have hop := hrun.op_ne_none
    obtain ⟨hret, hpad, habs⟩ | ⟨hret, hdig, rfl, hpad⟩ := hret
    · cases hret.symm.trans hret'
      refine hs.within hbusy (by simp [Caller.phase, Phase.running]) (by simp) (by simp) (by simp) ?_
      simp only [State.PhaseAgrees, State.setActive_phase, Caller.phase]
      exact ⟨State.Running.setActive hrun, (State.setActive_noCompression _ _).2 ⟨rfl, rfl, hk, rfl⟩,
        (State.setActive_cntLo _ _).trans hlo, (State.setActive_pad _ _).trans hpad,
        (State.setActive_enc _ _).trans henc, _, r, State.activeCtx_setActive _ _ hop,
        (State.setActive_rem _ _).trans hrem, Nat.zero_lt_succ 63, habs.emptyBuf hfull _⟩
    · cases hret.symm.trans hret'
      refine hs.within hbusy (by simp [Caller.phase, Phase.running]) (by simp) (by simp) (by simp) ?_
      simp only [State.PhaseAgrees, State.setActive_phase, Caller.phase]
      refine ⟨State.Running.setActive hrun, (State.setActive_digesting _ _).2 hdig,
        (State.setActive_noCompression _ _).2 ⟨rfl, rfl, hk, rfl⟩, (State.setActive_cntLo _ _).trans hlo,
        (State.setActive_enc _ _).trans henc, (State.setActive_rem _ _).trans hrem, _,
        State.activeCtx_setActive _ _ hop, .inr ?_⟩
      obtain hpad | hpad := hpad
      · exact .inl ⟨(State.setActive_pad _ _).trans hpad, Nat.zero_le 56⟩
      · exact .inr ⟨(State.setActive_pad _ _).trans hpad, rfl⟩

/-- PAD hands a full BUF to COMPRESS (42_finalize.md R172). -/
theorem seqPadCompress_inv {c : Ctx} {buf : List Byte} {next : PadStep} (hs : s.Inv) (hp : s.phase = .pad)
    (hfull : buf.length = 64) (hnext : next = .lengthField ∨ next = .done) : (seqPadCompress c buf next s).Inv := by
  have hphase := hs.phaseAgrees
  simp only [State.PhaseAgrees, hp] at hphase
  obtain ⟨hrun, hdig, hno, hlo, henc, hrem, -⟩ := hphase
  refine hs.within (by rw [hp]; rfl) ?_ ?_ ?_ ?_ ?_
  · simp [seqPadCompress, Phase.running]
  · simp
  · simp [seqPadCompress]
  · simp [seqPadCompress]
  · simp only [seqPadCompress, State.PhaseAgrees, State.setActive_phase]
    exact ⟨State.Running.setActive hrun, (State.setActive_compressing _ _).2 hno.compressing,
      (State.setActive_cntLo _ _).trans hlo, (State.setActive_enc _ _).trans henc, _, 0,
      State.activeCtx_setActive _ _ hrun.op_ne_none, (State.setActive_rem _ _).trans hrem, hfull,
      .inr ⟨State.setActive_ret _ _, (State.setActive_digesting _ _).2 hdig, rfl,
        hnext.imp (fun h => (State.setActive_pad _ _).trans (congrArg some h))
          (fun h => (State.setActive_pad _ _).trans (congrArg some h))⟩⟩

theorem seqPad_inv (hs : s.Inv) (hp : s.phase = .pad) (h : seqPad s = .next t) : t.Inv := by
  have hbusy : s.phase.running = true := by rw [hp]; rfl
  have hphase := hs.phaseAgrees
  simp only [State.PhaseAgrees, hp] at hphase
  obtain ⟨hrun, hdig, hno, hlo, henc, hrem, c, hact, hpos⟩ := hphase
  obtain ⟨c', hact', hcase⟩ := seqPad_next h
  cases hact.symm.trans hact'
  obtain ⟨hpad, -, rfl⟩ | ⟨hpad, hle, rfl⟩ | ⟨hpad, rfl⟩ | ⟨hpad, rfl⟩ := hcase
  · have hlt : c.buf.length < 64 := by
      obtain ⟨-, hset⟩ | ⟨hpad', -⟩ | ⟨hpad', -⟩ := hpos
      · exact hset.1
      · cases hpad.symm.trans hpad'
      · cases hpad.symm.trans hpad'
    have hroom : (c.buf ++ [0x80]).length ≤ 64 := by
      rw [List.length_append, List.length_singleton]
      omega
    exact seqPadCompress_inv hs hp (zeroFill_length hroom) (.inl rfl)
  · refine hs.within hbusy (by simp [hbusy]) (by simp) (by simp) (by simp) ?_
    simp only [State.PhaseAgrees, State.setActive_phase, hp]
    exact ⟨State.Running.setActive hrun, (State.setActive_digesting _ _).2 hdig,
      (State.setActive_noCompression _ _).2 hno, (State.setActive_cntLo _ _).trans hlo,
      (State.setActive_enc _ _).trans henc, (State.setActive_rem _ _).trans hrem, _,
      State.activeCtx_setActive _ _ hrun.op_ne_none, .inr (.inl ⟨State.setActive_pad _ _, hle⟩)⟩
  · have hle : c.buf.length ≤ 56 := by
      obtain ⟨hpad', -⟩ | ⟨-, hle⟩ | ⟨hpad', -⟩ := hpos
      · cases hpad.symm.trans hpad'
      · exact hle
      · cases hpad.symm.trans hpad'
    have hfull : (memWrite (zeroFill c.buf 56) 56 (bytesBe64 (bitLength c.len))).length = 64 := by
      rw [memWrite_length (by rw [zeroFill_length hle]), zeroFill_length hle]
      rfl
    exact seqPadCompress_inv hs hp hfull (.inr rfl)
  · refine hs.within hbusy rfl rfl rfl rfl ⟨hrun, hdig, hno, hlo, rfl, hrem, c, hact, ?_⟩
    intro e he
    cases henc.symm.trans he

/-- FINALIZE leaves the initial context, EVAL the one it found settled (42_finalize.md R168, 44_host_commands.md R211). -/
theorem seqPublish_inv (h : Hash) (herr : s.status.err = false) (hrun : s.Running) (hdig : s.Digesting) :
    (seqPublish (serializeRaw h) (serializeHex h) s).Inv := by
  have hout := State.writeOutputs_outputsAgree h s
  obtain ⟨hop, -⟩ | ⟨hop, -⟩ | ⟨hop, -, -, hset⟩ := hrun
  · obtain hop' | hop' := hdig <;> cases hop.symm.trans hop'
  · simp only [seqPublish, hop]
    exact State.finishCommand_inv herr hout Ctx.initial_settled
  · simp only [seqPublish, hop]
    exact State.finishCommand_inv herr hout hset

theorem seqEncode_inv (hs : s.Inv) (hp : s.phase = .encode) (h : seqEncode s = .next t) : t.Inv := by
  have hbusy : s.phase.running = true := by rw [hp]; rfl
  have hphase := hs.phaseAgrees
  simp only [State.PhaseAgrees, hp] at hphase
  obtain ⟨hrun, hdig, hno, hlo, hpad, hrem, c, hact, hagrees⟩ := hphase
  have next_inv : ∀ e : Encoder, e.Agrees c.h → State.Inv { s with trans := { s.trans with enc := some e } } := by
    intro e he
    refine hs.within hbusy hbusy rfl rfl rfl ?_
    simp only [State.PhaseAgrees, hp]
    exact ⟨hrun, hdig, hno, hlo, hpad, hrem, c, hact, fun e' he' => Option.some.inj he' ▸ he⟩
  obtain ⟨c', hact', hcase⟩ := seqEncode_next h
  cases hact.symm.trans hact'
  obtain ⟨-, rfl⟩ | ⟨e, henc, hstep⟩ := hcase
  · exact next_inv _ (Encoder.agrees_latch c.h)
  · have he := hagrees e henc
    obtain ⟨hm, rfl⟩ | ⟨hm, hj, rfl⟩ | ⟨hm, hj, rfl⟩ := hstep
    · exact next_inv _ (he.character hm)
    · exact next_inv _ (he.nextWord hm hj)
    · obtain ⟨hraw, hhex⟩ := he.complete hm hj
      rw [hraw, hhex]
      exact seqPublish_inv c.h (hs.err_of_running hbusy) hrun hdig

theorem tick_inv (hs : s.Inv) (h : tick s = .next t) : t.Inv := by
  cases hr : s.rst with
  | true =>
    rw [tick_rst hr] at h
    cases h
    exact s.applyReset_inv
  | false =>
    cases hp : s.phase with
    | idle => exact seqIdle_inv hs hp (tick_idle ⟨hr, hp⟩ ▸ h)
    | cntLo => exact seqCntLo_inv hs hp (tick_cntLo hr hp ▸ h)
    | cntHi => exact seqCntHi_inv hs hp (tick_cntHi hr hp ▸ h)
    | absorb => exact seqAbsorb_inv hs hp (tick_absorb hr hp ▸ h)
    | compress => exact seqCompress_inv hs hp (tick_compress hr hp ▸ h)
    | pad => exact seqPad_inv hs hp (tick_pad hr hp ▸ h)
    | encode => exact seqEncode_inv hs hp (tick_encode hr hp ▸ h)
    | halt w => cases (tick_halt hr hp).symm.trans h

end Sys2Proof.Machine
end

section
/-!
The invariant along the steps of the machine (spec/20_memory.md R51).
-/
namespace Sys2Proof.Machine

/-- Settles O13: a step is a whole command run between commands, or a step of the sequencer in one of its phases. -/
theorem everyStepKeepsTheInvariant : Obligations.EveryStepKeepsTheInvariant := by
  intro s t hs h
  obtain htick | ⟨i, ws, bs, hready, -, hexec⟩ := step_cases s
  · exact tick_inv hs (htick ▸ h)
  · obtain ⟨-, herr, hout, hset, -⟩ := hs.of_idle hready.2
    have hready' : State.Ready { s with cmdIn := ws, payIn := bs } := hready
    rw [hexec, exec_ready hready'] at h
    cases h
    exact effectOf_inv (s := { s with cmdIn := ws, payIn := bs }) herr hout hset i

end Sys2Proof.Machine
end

section
/-!
Which transfer a step of the sequencer takes (spec/30_encoding.md R70, R71): a word where `cmd_ready` is 1, a byte where `in_ready` is 1.
-/
namespace Sys2Proof.Machine

variable {s t : State}

theorem State.inReady_of_ne_absorb (hp : s.phase ≠ .absorb) : s.inReady = false := by
  unfold State.inReady
  split
  · next habsorb _ _ => exact absurd habsorb hp
  · exact Bool.and_false _

theorem State.inReady_of_rem_zero (hrem : s.trans.rem = some 0) : s.inReady = false := by
  unfold State.inReady
  split
  · next hrem' _ =>
    cases hrem.symm.trans hrem'
    simp
  · exact Bool.and_false _

/-- In ABSORB with payload to come the block can take a byte: BUFLEN < 64 (10_state.md R25). -/
theorem State.Inv.inReady_of_absorb {r : DWord} (hs : s.Inv) (hr : s.rst = false) (hp : s.phase = .absorb)
    (hrem : s.trans.rem = some r) (h0 : r ≠ 0) : s.inReady = true := by
  have hphase := hs.phaseAgrees
  simp only [State.PhaseAgrees, hp] at hphase
  obtain ⟨-, -, -, -, -, c, -, hact, -, hlt, -⟩ := hphase
  simp only [State.inReady, hr, hp, hrem, hact, decide_eq_true h0, decide_eq_true hlt, Bool.not_false, Bool.and_self]

/-- A byte taken in ABSORB is at the end of the active BUF, and REM is one less (41_update.md R145). -/
theorem seqTakeByte_rem_activeCtx (b : Byte) (r : DWord) (c : Ctx) (hop : s.trans.op ≠ none) :
    (seqTakeByte b r c s).trans.rem = some (r - 1) ∧
      (seqTakeByte b r c s).activeCtx = some { c with buf := c.buf ++ [b] } := by
  by_cases hfull : (c.buf ++ [b]).length = 64
  · rw [seqTakeByte_of_full r hfull]
    exact ⟨State.setActive_rem _ _, State.activeCtx_setActive _ _ hop⟩
  · rw [seqTakeByte_of_not_full r hfull]
    exact ⟨State.setActive_rem _ _, State.activeCtx_setActive _ _ hop⟩

theorem seqAbsorb_byte {r : DWord} {c : Ctx} {b : Byte} {bs : List Byte} (hrem : s.trans.rem = some r)
    (hact : s.activeCtx = some c) (h0 : r ≠ 0) (hb : s.payIn = b :: bs) :
    seqAbsorb s = .next (seqTakeByte b r c { s with payIn := bs }) := by
  simp only [seqAbsorb, hrem, hact, if_neg h0, hb]

theorem seqAbsorb_wait {r : DWord} {c : Ctx} (hrem : s.trans.rem = some r) (hact : s.activeCtx = some c) (h0 : r ≠ 0)
    (hb : s.payIn = []) : seqAbsorb s = .next s := by
  simp only [seqAbsorb, hrem, hact, if_neg h0, hb]

theorem seqIdle_ports (h : seqIdle s = .next t) : t.cmdIn = s.cmdIn.tail ∧ t.payIn = s.payIn := by
  obtain ⟨hc, rfl⟩ | ⟨w, ws, hc, ⟨-, rfl⟩ | ⟨-, rfl⟩ | ⟨op, -, -, rfl⟩⟩ := seqIdle_next h <;> simp [hc]

theorem seqCntLo_ports (h : seqCntLo s = .next t) : t.cmdIn = s.cmdIn.tail ∧ t.payIn = s.payIn := by
  obtain ⟨hc, rfl⟩ | ⟨w, ws, hc, rfl⟩ := seqCntLo_next h <;> simp [hc]

theorem seqCntHi_ports (h : seqCntHi s = .next t) : t.cmdIn = s.cmdIn.tail ∧ t.payIn = s.payIn := by
  obtain ⟨hc, rfl⟩ | ⟨hi, ws, lo, c, hc, -, -, rfl⟩ := seqCntHi_next h <;> simp [hc]

theorem seqCompress_ports (h : seqCompress s = .next t) : t.cmdIn = s.cmdIn ∧ t.payIn = s.payIn := by
  obtain ⟨c, ret, -, -, ⟨-, -, -, rfl⟩ | ⟨v, w, w', k, -, -, -, -, rfl⟩ | ⟨v, w, -, -, -, rfl⟩⟩ :=
    seqCompress_next h <;> simp

theorem seqPad_ports (h : seqPad s = .next t) : t.cmdIn = s.cmdIn ∧ t.payIn = s.payIn := by
  obtain ⟨c, -, ⟨-, -, rfl⟩ | ⟨-, -, rfl⟩ | ⟨-, rfl⟩ | ⟨-, rfl⟩⟩ := seqPad_next h <;> simp

theorem seqEncode_ports (h : seqEncode s = .next t) : t.cmdIn = s.cmdIn ∧ t.payIn = s.payIn := by
  obtain ⟨c, -, ⟨-, rfl⟩ | ⟨e, -, ⟨-, rfl⟩ | ⟨-, -, rfl⟩ | ⟨-, -, rfl⟩⟩⟩ := seqEncode_next h <;> simp

/-- In ABSORB a byte is taken where REM is not 0, and no word. -/
theorem seqAbsorb_ports {r : DWord} (hrem : s.trans.rem = some r) (h : seqAbsorb s = .next t) :
    t.cmdIn = s.cmdIn ∧ t.payIn = if r = 0 then s.payIn else s.payIn.tail := by
  obtain ⟨r', c, hrem', -, hcase⟩ := seqAbsorb_next h
  cases hrem.symm.trans hrem'
  obtain ⟨h0, rfl⟩ | ⟨h0, hb, rfl⟩ | ⟨h0, b, bs, hb, rfl⟩ := hcase
  · simp [h0]
  · simp [hb]
  · rw [if_neg h0]
    simp [hb]

/-- `t` is `s` after the transfers that the ready signals of `s` allow (30_encoding.md R70, R71). -/
def State.TransfersTo (s t : State) : Prop :=
  t.cmdIn = (if s.cmdReady then s.cmdIn.tail else s.cmdIn) ∧ t.payIn = (if s.inReady then s.payIn.tail else s.payIn)

theorem State.transfersTo_of_word (hc : s.cmdReady = true) (hp : s.phase ≠ .absorb)
    (h : t.cmdIn = s.cmdIn.tail ∧ t.payIn = s.payIn) : s.TransfersTo t := by
  simp only [State.TransfersTo, hc, State.inReady_of_ne_absorb hp]
  exact h

theorem State.transfersTo_of_none (hc : s.cmdReady = false) (hi : s.inReady = false)
    (h : t.cmdIn = s.cmdIn ∧ t.payIn = s.payIn) : s.TransfersTo t := by
  simp only [State.TransfersTo, hc, hi]
  exact h

theorem seqAbsorb_transfers (hs : s.Inv) (hr : s.rst = false) (hp : s.phase = .absorb) (h : seqAbsorb s = .next t) :
    s.TransfersTo t := by
  have hc : s.cmdReady = false := by simp [State.cmdReady, hp]
  obtain ⟨r, -, hrem, -⟩ := seqAbsorb_next h
  obtain ⟨hcmd, hpay⟩ := seqAbsorb_ports hrem h
  by_cases h0 : r = 0
  · rw [if_pos h0] at hpay
    exact State.transfersTo_of_none hc (State.inReady_of_rem_zero (h0 ▸ hrem)) ⟨hcmd, hpay⟩
  · rw [if_neg h0] at hpay
    simp only [State.TransfersTo, hc, hs.inReady_of_absorb hr hp hrem h0]
    exact ⟨hcmd, hpay⟩

theorem tick_transfers (hs : s.Inv) (h : tick s = .next t) : s.TransfersTo t := by
  cases hr : s.rst with
  | true =>
    rw [tick_rst hr] at h
    cases h
    exact State.transfersTo_of_none (by simp [State.cmdReady, hr]) (by simp [State.inReady, hr]) ⟨rfl, rfl⟩
  | false =>
    have ready : s.phase = .idle ∨ s.phase = .cntLo ∨ s.phase = .cntHi → s.cmdReady = true := by
      rintro (hp | hp | hp) <;> simp [State.cmdReady, hr, hp]
    have not_ready : s.phase = .compress ∨ s.phase = .pad ∨ s.phase = .encode → s.cmdReady = false := by
      rintro (hp | hp | hp) <;> simp [State.cmdReady, hp]
    cases hp : s.phase with
    | idle => exact State.transfersTo_of_word (ready (by simp [hp])) (by simp [hp]) (seqIdle_ports (tick_idle ⟨hr, hp⟩ ▸ h))
    | cntLo => exact State.transfersTo_of_word (ready (by simp [hp])) (by simp [hp]) (seqCntLo_ports (tick_cntLo hr hp ▸ h))
    | cntHi => exact State.transfersTo_of_word (ready (by simp [hp])) (by simp [hp]) (seqCntHi_ports (tick_cntHi hr hp ▸ h))
    | absorb => exact seqAbsorb_transfers hs hr hp (tick_absorb hr hp ▸ h)
    | compress =>
      exact State.transfersTo_of_none (not_ready (by simp [hp])) (State.inReady_of_ne_absorb (by simp [hp]))
        (seqCompress_ports (tick_compress hr hp ▸ h))
    | pad =>
      exact State.transfersTo_of_none (not_ready (by simp [hp])) (State.inReady_of_ne_absorb (by simp [hp]))
        (seqPad_ports (tick_pad hr hp ▸ h))
    | encode =>
      exact State.transfersTo_of_none (not_ready (by simp [hp])) (State.inReady_of_ne_absorb (by simp [hp]))
        (seqEncode_ports (tick_encode hr hp ▸ h))
    | halt w => cases (tick_halt hr hp).symm.trans h

/-- An offered COUNT word is taken (30_encoding.md R75). -/
theorem tick_count_word {w : Word} {ws : List Word} (hs : s.Inv) (hr : s.rst = false)
    (hp : s.phase = .cntLo ∨ s.phase = .cntHi) (hw : s.cmdIn = w :: ws) : ∃ t, tick s = .next t := by
  obtain hp | hp := hp
  · rw [tick_cntLo hr hp]
    simp only [seqCntLo, hw]
    exact ⟨_, rfl⟩
  · have hphase := hs.phaseAgrees
    simp only [State.PhaseAgrees, hp] at hphase
    obtain ⟨-, -, hlo, -, -, -, c, hact, -⟩ := hphase
    obtain ⟨lo, hlo⟩ := Option.isSome_iff_exists.1 hlo
    rw [tick_cntHi hr hp]
    simp only [seqCntHi, hw, hlo, hact]
    exact ⟨_, rfl⟩

end Sys2Proof.Machine
end

section
/-!
Waiting for a payload (spec/70_reset_and_hazards.md R269).
-/
namespace Sys2Proof.Machine

/-- Settles O58: the COUNT words, a byte or a wait in ABSORB, the end of the payload, and every transfer of a step. -/
theorem unfinishedPayloadWaits : Obligations.UnfinishedPayloadWaits := by
  refine ⟨?_, ?_, ?_, fun _ _ hs h => tick_transfers hs h⟩
  · intro s hs hr hp
    have hready : s.cmdReady = true := by obtain hp | hp := hp <;> simp [State.cmdReady, hr, hp]
    have hne : s.phase ≠ .idle ∧ s.phase ≠ .absorb := by obtain hp | hp := hp <;> simp [hp]
    refine ⟨hready, fun w ws hw => ?_⟩
    obtain ⟨t, ht⟩ := tick_count_word hs hr hp hw
    obtain ⟨hcmd, hpay⟩ := tick_transfers hs ht
    rw [hready, if_pos rfl, hw] at hcmd
    rw [State.inReady_of_ne_absorb hne.2] at hpay
    exact ⟨t, (step_eq_tick hne.1).trans ht, hcmd, hpay⟩
  · intro s r hs hr hp hrem h0
    have hstep : step s = seqAbsorb s := by rw [step_eq_tick (by simp [hp]), tick_absorb hr hp]
    have hphase := hs.phaseAgrees
    simp only [State.PhaseAgrees, hp] at hphase
    obtain ⟨hrun, -, -, -, -, c, -, hact, -⟩ := hphase
    refine ⟨hs.inReady_of_absorb hr hp hrem h0, fun b bs hb => ?_, fun hb => ?_⟩
    · obtain ⟨hrem', hact'⟩ := seqTakeByte_rem_activeCtx (s := { s with payIn := bs }) b r c hrun.op_ne_none
      exact ⟨c, _, hact, hstep.trans (seqAbsorb_byte hrem hact h0 hb), by simp, hrem', hact', by simp⟩
    · have hwait := hstep.trans (seqAbsorb_wait hrem hact h0 hb)
      have hrunning : s.phase.running = true := by rw [hp]; rfl
      exact ⟨hwait, hs.busy_eq.trans hrunning, hrunning, hwait⟩
  · intro s hr hp hrem
    refine ⟨State.inReady_of_rem_zero hrem, fun t ht => ?_⟩
    rw [step_eq_tick (by simp [hp]), tick_absorb hr hp] at ht
    exact (seqAbsorb_ports hrem ht).2

end Sys2Proof.Machine
end

section
/-!
COUNT and the transaction of a command (spec/30_encoding.md R72, R75, R84): decoding takes off the ports what encoding put there.
-/
namespace Sys2Proof

/-- COUNT as a number (R75): its high word counts in units of 2^32. -/
theorem countOf_toNat (lo hi : Word) : (countOf lo hi).toNat = hi.toNat * 2 ^ 32 + lo.toNat := by
  have hfit : hi.toNat <<< 32 < 2 ^ 64 := by
    rw [Nat.shiftLeft_eq]
    omega
  rw [countOf, BitVec.toNat_or, BitVec.toNat_shiftLeft, BitVec.toNat_setWidth_of_le (by decide),
    BitVec.toNat_setWidth_of_le (by decide), Nat.mod_eq_of_lt hfit, ← Nat.shiftLeft_add_eq_or_of_lt lo.isLt,
    Nat.shiftLeft_eq]

/-- A length below 2^64 comes back from its two COUNT words. -/
theorem countOf_split_toNat {n : Nat} (h : n < 2 ^ 64) :
    (countOf (BitVec.ofNat 32 (n % 2 ^ 32)) (BitVec.ofNat 32 (n / 2 ^ 32))).toNat = n := by
  rw [countOf_toNat, BitVec.toNat_ofNat, BitVec.toNat_ofNat]
  omega

theorem decodePayload_countWords (mk : List Byte → Instr) {p : List Byte} (h : p.length < 2 ^ 64) (ws : List Word)
    (bs : List Byte) : decodePayload mk (countWords p ++ ws) (p ++ bs) = .complete (mk p) ws bs := by
  simp only [countWords, List.cons_append, List.nil_append, decodePayload, countOf_split_toNat h]
  simp

/-- The decoder reads a well-formed command back, whatever is offered behind it (R84). -/
theorem decode_encode_append {i : Instr} (hi : i.WellFormed) (ws : List Word) (bs : List Byte) :
    decode ((encode i).1 ++ ws) ((encode i).2 ++ bs) = .complete i ws bs := by
  cases i with
  | clear => rfl
  | update p => exact decodePayload_countWords Instr.update hi ws bs
  | finalize p => exact decodePayload_countWords Instr.finalize hi ws bs
  | eval p => exact decodePayload_countWords Instr.eval hi ws bs

end Sys2Proof
end

section
/-!
Atomic commands (spec/20_memory.md R51) and the stream of them (R59): a step takes the first command's transfers and runs it, and a
command neither reads nor writes what is offered behind it.
-/
namespace Sys2Proof.Machine

/-- Settles O10: in a ready state the fetch is what the decoder reads. -/
theorem stepRunsTheDecodedInstruction : Obligations.StepRunsTheDecodedInstruction := by
  intro s i ws bs hs hd
  have hfetch : fetch s = .run i { s with cmdIn := ws, payIn := bs } := by simp [fetch, hs.1, hs.2, hd]
  rw [step, hfetch]

/-- A command's effect does not depend on what is offered behind it. -/
theorem effectOf_other_ports (i : Instr) (s : State) (ws : List Word) (bs : List Byte) :
    effectOf i { s with cmdIn := ws, payIn := bs } = { effectOf i s with cmdIn := ws, payIn := bs } := by
  cases i <;> rfl

/-- The command at the head of the ports is taken off them and runs to its end in one step. -/
theorem step_encode_append {s : State} {i : Instr} {ws : List Word} {bs : List Byte} (hs : s.Ready) (hi : i.WellFormed)
    (hc : s.cmdIn = (encode i).1 ++ ws) (hp : s.payIn = (encode i).2 ++ bs) :
    step s = .next { effectOf i s with cmdIn := ws, payIn := bs } := by
  have hd : decode s.cmdIn s.payIn = .complete i ws bs := by rw [hc, hp, decode_encode_append hi]
  have hs' : State.Ready { s with cmdIn := ws, payIn := bs } := hs
  rw [stepRunsTheDecodedInstruction s i ws bs hs hd, exec_ready hs', effectOf_other_ports]

theorem run_succ_next {s t : State} (n : Nat) (h : step s = .next t) :
    Sys2Proof.core.run (n + 1) s = Sys2Proof.core.run n t := by
  have hcore : Sys2Proof.core.step s = .next t := h
  simp only [Host.Core.run, hcore]

theorem execAll_cons_ready {s : State} (hs : s.Ready) (i : Instr) (is : List Instr) :
    execAll (i :: is) s = execAll is (effectOf i s) := by
  simp only [execAll, exec_ready hs]

/-- Settles O14, by induction over the commands: a step runs the first, and leaves a ready block with the others' transfers. -/
theorem legalStreamCompletes : Obligations.LegalStreamCompletes := by
  intro is
  induction is with
  | nil =>
    intro s _ hs hc hp
    cases s
    cases hc
    cases hp
    exact ⟨_, rfl, rfl, hs, rfl, rfl⟩
  | cons i is ih =>
    intro s hwf hs hc hp
    obtain ⟨hi, his⟩ := List.forall_mem_cons.1 hwf
    have hempty : State.Ready { s with cmdIn := [], payIn := [] } := hs
    obtain ⟨t, hrun, hexec, hend⟩ :=
      ih { effectOf i s with cmdIn := (assemble is).1, payIn := (assemble is).2 } his (effectOf_ready hs i) rfl rfl
    refine ⟨t, (run_succ_next _ (step_encode_append hs hi hc hp)).trans hrun, ?_, hend⟩
    rw [execAll_cons_ready hempty, effectOf_other_ports]
    exact hexec

end Sys2Proof.Machine
end

section
/-!
The pending buffer as a byte sequence (spec/20_memory.md R50): reads of bytes appended to one another, and the UPDATE that only appends
(spec/41_update.md R142).
-/
namespace Sys2Proof.Machine

theorem memRead_append_left {buf : List Byte} {k n : Nat} (h : k + n ≤ buf.length) (v : List Byte) :
    memRead (buf ++ v) k n = memRead buf k n := by
  rw [memRead, List.drop_append_of_le_length (by omega), List.take_append_of_le_length (by simp; omega), memRead]

theorem memRead_append_right (buf v : List Byte) (k n : Nat) : memRead (buf ++ v) (buf.length + k) n = memRead v k n := by
  rw [memRead, List.drop_length_add_append, memRead]

theorem Ctx.absorbBlocks_of_short (c : Ctx) {p : List Byte} (h : p.length < 64) :
    c.absorbBlocks p = { c with buf := p } := by
  simp [Ctx.absorbBlocks, Nat.div_eq_of_lt h]

/-- A payload that does not fill the buffer is appended, and nothing is compressed. -/
theorem Ctx.update_of_short {c : Ctx} {p : List Byte} (h : c.buf.length + p.length < 64) :
    c.update p = { c with len := c.len + payloadCount p, buf := c.buf ++ p } := by
  obtain hempty | hpos := Nat.eq_zero_or_pos c.buf.length
  · have hnil : c.buf = [] := List.length_eq_zero_iff.1 hempty
    have hp : p.length < 64 := by omega
    simp [Ctx.update, hnil, Ctx.absorbBlocks_of_short _ hp]
  · have htake : p.take (min (64 - c.buf.length) p.length) = p := List.take_of_length_le (by omega)
    have hnotFull : (c.buf ++ p).length ≠ 64 := by simp only [List.length_append]; omega
    simp only [Ctx.update, if_pos hpos, memWrite_length_self, htake, if_neg hnotFull]

/-- Settles O26: BUF after the command is the old BUF followed by the payload. -/
theorem shortUpdateStoresOnlyAfterTheBuffer : Obligations.ShortUpdateStoresOnlyAfterTheBuffer := by
  intro p s hs hshort
  have hctx : (effectOf (.update p) s).ctx = { s.ctx with len := s.ctx.len + payloadCount p, buf := s.ctx.buf ++ p } :=
    Ctx.update_of_short hshort
  refine ⟨_, exec_ready hs (.update p), ?_⟩
  rw [hctx]
  exact ⟨rfl, List.length_append, fun k hk => memRead_append_left hk p, fun k _ => memRead_append_right s.ctx.buf p k 1⟩

end Sys2Proof.Machine
end

section
/-!
Command words and transactions (spec/30_encoding.md R72-R78, R84): a command word is its two fields, four words are legal, and what the
decoder takes off the ports is the one spelling of the command it reads.
-/
namespace Sys2Proof

/-- Settles O7: the decoder takes off exactly what encoding put in front. -/
theorem decodeAfterEncode : Obligations.DecodeAfterEncode :=
  fun _ ws bs hi => decode_encode_append hi ws bs

/-- RSVD and OP are all of a command word (R73). -/
theorem rsvdField_append_opField (w : Word) : rsvdField w ++ opField w = w :=
  BitVec.extractLsb'_append_extractLsb' (w := 28) (len := 4)

theorem eq_of_fields {v w : Word} (hr : rsvdField v = rsvdField w) (ho : opField v = opField w) : v = w := by
  rw [← rsvdField_append_opField v, hr, ho, rsvdField_append_opField]

@[simp] theorem decodeOp_word (op : Op) : decodeOp op.word = some op := by
  cases op <;> rfl

@[simp] theorem rsvdField_word (op : Op) : rsvdField op.word = 0 := by
  cases op <;> rfl

/-- A word that reads as an operation has that operation's OP and no reserved bit set (R73, R74). -/
theorem fields_of_decodeOp {w : Word} {op : Op} (h : decodeOp w = some op) :
    rsvdField w = 0 ∧ opField w = opField op.word := by
  rw [decodeOp] at h
  split at h
  case isFalse => cases h
  case isTrue hr =>
    refine ⟨hr, BitVec.eq_of_toNat_eq ?_⟩
    split at h <;> cases h <;> assumption

theorem decodeOp_eq_some_iff {w : Word} {op : Op} : decodeOp w = some op ↔ w = op.word := by
  constructor
  · intro h
    obtain ⟨hr, ho⟩ := fields_of_decodeOp h
    exact eq_of_fields (hr.trans (rsvdField_word op).symm) ho
  · rintro rfl
    exact decodeOp_word op

/-- The illegal words (R78): a reserved bit is set, or OP is one of its sixteen values that names no operation. -/
theorem decodeOp_eq_none_iff {w : Word} :
    decodeOp w = none ↔ (opField w = 0 ∨ 5 ≤ (opField w).toNat) ∨ rsvdField w ≠ 0 := by
  by_cases hr : rsvdField w = 0
  · rw [decodeOp, if_pos hr, or_iff_left (not_not_intro hr)]
    generalize opField w = o
    revert o
    decide
  · exact iff_of_true (if_neg hr) (.inr hr)

/-- Settles O5, one clause per operation and the illegal words. -/
theorem legalCommandWordsAreExactlyFour : Obligations.LegalCommandWordsAreExactlyFour :=
  ⟨fun _ => decodeOp_eq_some_iff, fun _ => decodeOp_eq_some_iff, fun _ => decodeOp_eq_some_iff,
    fun _ => decodeOp_eq_some_iff, fun _ => decodeOp_eq_none_iff⟩

/-- COUNT words and as many bytes as they count are a payload, whatever is offered behind it (R75, R76). -/
theorem decodePayload_append (mk : List Byte → Instr) {lo hi : Word} {p : List Byte}
    (h : p.length = hi.toNat * 2 ^ 32 + lo.toNat) (ws : List Word) (bs : List Byte) :
    decodePayload mk (lo :: hi :: ws) (p ++ bs) = .complete (mk p) ws bs := by
  have hcount : (countOf lo hi).toNat = p.length := (countOf_toNat lo hi).trans h.symm
  simp [decodePayload, hcount]

/-- Settles O6, by the operation: each with a payload hands its COUNT words and bytes to `decodePayload`. -/
theorem everyCountPairIsACount : Obligations.EveryCountPairIsACount := by
  refine ⟨countOf_toNat, ?_⟩
  intro op lo hi ws p bs hop hp
  cases op with
  | clear => exact absurd rfl hop
  | update => exact ⟨.update p, rfl, rfl, decodePayload_append Instr.update hp ws bs⟩
  | finalize => exact ⟨.finalize p, rfl, rfl, decodePayload_append Instr.finalize hp ws bs⟩
  | eval => exact ⟨.eval p, rfl, rfl, decodePayload_append Instr.eval hp ws bs⟩

/-- Two COUNT words are those of any payload they count: a count has one spelling (R75, R84). -/
theorem countWords_of_length {lo hi : Word} {p : List Byte} (h : p.length = hi.toNat * 2 ^ 32 + lo.toNat) :
    countWords p = [lo, hi] := by
  have hlo : (hi.toNat * 2 ^ 32 + lo.toNat) % 2 ^ 32 = lo.toNat := by omega
  have hhi : (hi.toNat * 2 ^ 32 + lo.toNat) / 2 ^ 32 = hi.toNat := by omega
  rw [countWords, h, hlo, hhi, BitVec.ofNat_toNat, BitVec.ofNat_toNat, BitVec.setWidth_eq, BitVec.setWidth_eq]

/-- All a complete payload can be: the COUNT words of some bytes, and those bytes, at the head of the two ports. -/
theorem decodePayload_complete {mk : List Byte → Instr} {ws ws' : List Word} {bs bs' : List Byte} {i : Instr}
    (h : decodePayload mk ws bs = .complete i ws' bs') :
    ∃ p, i = mk p ∧ p.length < 2 ^ 64 ∧ ws = countWords p ++ ws' ∧ bs = p ++ bs' := by
  obtain _ | ⟨lo, _ | ⟨hi, ws⟩⟩ := ws
  · cases h
  · cases h
  · rw [decodePayload] at h
    split at h
    case isFalse => cases h
    case isTrue hle =>
      cases h
      have hlen : (bs.take (countOf lo hi).toNat).length = (countOf lo hi).toNat := List.length_take_of_le hle
      have hcount := countWords_of_length (hlen.trans (countOf_toNat lo hi))
      refine ⟨_, rfl, ?_, by rw [hcount]; rfl, (List.take_append_drop _ bs).symm⟩
      rw [hlen]
      exact (countOf lo hi).isLt

/-- What the decoder reads is well formed, and its encoding stood at the head of the two ports (R72, R84). -/
theorem decode_complete {ws ws' : List Word} {bs bs' : List Byte} {i : Instr} (h : decode ws bs = .complete i ws' bs') :
    i.WellFormed ∧ ws = (encode i).1 ++ ws' ∧ bs = (encode i).2 ++ bs' := by
  cases ws with
  | nil => cases h
  | cons w ws =>
    cases hop : decodeOp w with
    | none => simp [decode, hop] at h
    | some op =>
      obtain rfl := decodeOp_eq_some_iff.1 hop
      cases op with
      | clear =>
        cases h
        exact ⟨by decide, rfl, rfl⟩
      | update | finalize | eval =>
        obtain ⟨p, rfl, hp, rfl, rfl⟩ := decodePayload_complete h
        exact ⟨hp, rfl, rfl⟩

/-- Settles O8: the decoder takes off exactly the encoding of what it reads. -/
theorem encodeAfterDecode : Obligations.EncodeAfterDecode :=
  fun _ _ _ _ _ h => decode_complete h

/-- Settles O4: each written-out word and byte is read by the decoder itself. -/
theorem handWrittenTransfersDecode : Obligations.HandWrittenTransfersDecode := by
  unfold Obligations.HandWrittenTransfersDecode
  decide

end Sys2Proof
end

section
/-!
The pseudo-commands (spec/30_encoding.md R83) and the output buses (R85-R87): a byte sequence on a bus is its bytes side by side.
-/
namespace Sys2Proof.Machine

/-- Settles O9: `expandLine` answers each line's expansion as it stands, the operand of DIGEST unread. -/
theorem pseudoCommandsExpand : Obligations.PseudoCommandsExpand :=
  ⟨rfl, rfl, rfl, rfl, rfl, rfl, fun _ => rfl⟩

theorem packBytes_snoc (n : Nat) (bs : List Byte) (b : Byte) :
    packBytes n (bs ++ [b]) = (packBytes n bs <<< 8) ||| b.setWidth n := by
  rw [packBytes, List.foldl_append]
  rfl

/-- A narrower bus carries the low bits of a wider one. -/
theorem setWidth_packBytes {m n : Nat} (h : m ≤ n) (bs : List Byte) : (packBytes n bs).setWidth m = packBytes m bs := by
  induction bs using List.reverseRecOn with
  | nil => exact BitVec.setWidth_zero m n
  | append_singleton bs b ih =>
    rw [packBytes_snoc, packBytes_snoc, BitVec.setWidth_or, BitVec.setWidth_shiftLeft_of_le h, ih,
      BitVec.setWidth_setWidth_of_le _ h]

/-- One more byte stands below those before it. -/
theorem packBytes_append_byte (n : Nat) (bs : List Byte) (b : Byte) :
    packBytes (n + 8) (bs ++ [b]) = packBytes n bs ++ b := by
  have hwiden := BitVec.setWidth_append_eq_shiftLeft_setWidth_or (b := packBytes (n + 8) bs) (b' := b) (w'' := n + 8)
  rw [BitVec.setWidth_append_of_eq rfl, setWidth_packBytes (Nat.le_add_right n 8), BitVec.setWidth_eq,
    BitVec.setWidth_eq] at hwiden
  rw [packBytes_snoc, hwiden]

/-- One more word stands below the bytes before it. -/
theorem packBytes_append_bytesBe32 (n : Nat) (bs : List Byte) (x : Word) :
    packBytes (n + 32) (bs ++ bytesBe32 x) = packBytes n bs ++ x := by
  have hbytes : bs ++ bytesBe32 x =
      bs ++ [x.extractLsb' 24 8] ++ [x.extractLsb' 16 8] ++ [x.extractLsb' 8 8] ++ [x.extractLsb' 0 8] := by
    simp [bytesBe32]
  rw [hbytes]
  change packBytes (n + 8 + 8 + 8 + 8) _ = _
  simp only [packBytes_append_byte]
  ext i hi
  simp only [BitVec.getElem_append, BitVec.getElem_extractLsb']
  grind

/-- Byte k of a sequence with j bytes after it is bits 8j+7:8j of the bus (R85, R86). -/
theorem getElem?_eq_extractLsb'_packBytes {n k j : Nat} {bs : List Byte} (hn : 8 * bs.length ≤ n)
    (hk : k + j + 1 = bs.length) : bs[k]? = some ((packBytes n bs).extractLsb' (8 * j) 8) := by
  induction bs using List.reverseRecOn generalizing n j with
  | nil => simp at hk
  | append_singleton bs b ih =>
    rw [List.length_append, List.length_singleton] at hn hk
    obtain ⟨n, rfl⟩ : ∃ m, n = m + 8 := ⟨n - 8, by omega⟩
    rw [packBytes_append_byte]
    cases j with
    | zero =>
      obtain rfl : k = bs.length := by omega
      rw [List.getElem?_concat_length, Nat.mul_zero, BitVec.extractLsb'_append_eq_right]
    | succ j =>
      rw [List.getElem?_append_left (by omega), BitVec.extractLsb'_append_eq_of_le (by omega),
        ih (n := n) (j := j) (by omega) (by omega), Nat.mul_succ, Nat.add_sub_cancel]

/-- The digest bus is H[0] to H[4] side by side. -/
theorem packBytes_serializeRaw (h : Hash) :
    packBytes 160 (serializeRaw h) = h.h0 ++ h.h1 ++ h.h2 ++ h.h3 ++ h.h4 := by
  change packBytes (0 + 32 + 32 + 32 + 32 + 32) ([] ++ bytesBe32 h.h0 ++ _ ++ _ ++ _ ++ _) = _
  simp only [packBytes_append_bytesBe32, BitVec.zero_width_append]
  rfl

/-- H[j] on the digest bus. -/
theorem digestBus_word (h : Hash) {j : Nat} (hj : j ≤ 4) :
    (h.h0 ++ h.h1 ++ h.h2 ++ h.h3 ++ h.h4).extractLsb' (128 - 32 * j) 32 = hashWord h j := by
  interval_cases j <;>
    simp (disch := decide) only [Nat.reduceMul, Nat.reduceSub, BitVec.extractLsb'_append_eq_of_le,
      BitVec.extractLsb'_append_eq_right, BitVec.extractLsb'_eq_self] <;> rfl

/-- Nibble k of the digest bus from the top is the one character k of the hex string spells (R85, R192). -/
theorem serializeHex_eq_digestBus (h : Hash) {k : Nat} (hk : k < 40) :
    (serializeHex h)[k]? =
      some (hexChar ((h.h0 ++ h.h1 ++ h.h2 ++ h.h3 ++ h.h4).extractLsb' (156 - 4 * k) 4)) := by
  have hj : k / 8 ≤ 4 := by omega
  have hm : k % 8 < 8 := Nat.mod_lt k (by decide)
  have hbit : 128 - 32 * (k / 8) + (28 - 4 * (k % 8)) = 156 - 4 * k := by omega
  calc (serializeHex h)[k]?
      = (serializeHex h)[8 * (k / 8) + k % 8]? := by rw [Nat.div_add_mod]
    _ = some (hexChar ((hashWord h (k / 8)).extractLsb' (28 - 4 * (k % 8)) 4)) := serializeHex_getElem? h hj hm
    _ = _ := by rw [← digestBus_word h hj, extractLsb'_of_extractLsb' _ _ _ (by omega), hbit]

theorem digestPort_valid {s : State} {raw : List Byte} (hv : s.status.dvalid = true) (hd : s.digest = some raw) :
    s.digestPort = .ok (packBytes 160 raw) := by
  simp only [State.digestPort, hv, hd]

theorem digestPort_invalid {s : State} (hv : s.status.dvalid = false) : s.digestPort = .error .noValue := by
  simp only [State.digestPort, hv]

theorem hexPort_valid {s : State} {chars : List Byte} (hv : s.status.dvalid = true) (hx : s.hex = some chars) :
    s.hexPort = .ok (packBytes 320 chars) := by
  simp only [State.hexPort, hv, hx]

theorem hexPort_invalid {s : State} (hv : s.status.dvalid = false) : s.hexPort = .error .noValue := by
  simp only [State.hexPort, hv]

/-- Settles O46: the bus by words, by bytes and by nibbles. -/
theorem digestBusPacking : Obligations.DigestBusPacking := by
  refine ⟨?_, fun _ => digestPort_invalid⟩
  intro s h hv hd
  refine ⟨_, digestPort_valid hv hd, packBytes_serializeRaw h, ?_, ?_⟩
  · intro k hk
    have hbit : 152 - 8 * k = 8 * (19 - k) := by omega
    rw [hbit]
    exact getElem?_eq_extractLsb'_packBytes (by simp) (by rw [serializeRaw_length]; omega)
  · intro k hk
    rw [packBytes_serializeRaw]
    exact serializeHex_eq_digestBus h hk

/-- Settles O47: 40 bytes fill the bus. -/
theorem hexBusPacking : Obligations.HexBusPacking := by
  refine ⟨?_, fun _ => hexPort_invalid⟩
  intro s chars hv hx hlen
  refine ⟨_, hexPort_valid hv hx, ?_⟩
  intro k hk
  have hbit : 312 - 8 * k = 8 * (39 - k) := by omega
  rw [hbit]
  exact getElem?_eq_extractLsb'_packBytes (by omega) (by omega)

/-- The status bus bit by bit (R30, R87). -/
theorem getLsbD_statusPort (s : State) (i : Nat) :
    s.statusPort.getLsbD i =
      (decide (i = 0) && s.status.busy || decide (i = 1) && s.status.dvalid || decide (i = 2) && s.status.err) := by
  rcases i with _ | _ | _ | i <;> simp [State.statusPort, statusWord]

/-- Settles O48: the three lowest bits are the STATUS bits, and a bit from 3 up is none of them. -/
theorem statusBus : Obligations.StatusBus := by
  intro s
  refine ⟨by rw [getLsbD_statusPort]; simp, by rw [getLsbD_statusPort]; simp, by rw [getLsbD_statusPort]; simp, ?_⟩
  ext i hi
  have hne : 3 + i ≠ 1 ∧ 3 + i ≠ 2 := by omega
  simp [getLsbD_statusPort, hne]

end Sys2Proof.Machine
end

section
/-!
The mixing functions and constants of the four groups of rounds (spec/40_compression.md R103-R107).
-/
namespace Sys2Proof.Machine

theorem mix_eq_mix0 {t : Nat} (h : t < 20) (x y z : Word) : mix t x y z = mix0 x y z := by
  have hg : t / 20 = 0 := by omega
  simp only [mix, hg]

theorem mix_eq_mix1 {t : Nat} (hl : 20 ≤ t) (hu : t < 40) (x y z : Word) : mix t x y z = mix1 x y z := by
  have hg : t / 20 = 1 := by omega
  simp only [mix, hg]

theorem mix_eq_mix2 {t : Nat} (hl : 40 ≤ t) (hu : t < 60) (x y z : Word) : mix t x y z = mix2 x y z := by
  have hg : t / 20 = 2 := by omega
  simp only [mix, hg]

theorem mix_eq_mix3 {t : Nat} (hl : 60 ≤ t) (hu : t < 80) (x y z : Word) : mix t x y z = mix3 x y z := by
  have hg : t / 20 = 3 := by omega
  simp only [mix, hg]

theorem getLsbD_mix0 (x y z : Word) {i : Nat} (hi : i < 32) :
    (mix0 x y z).getLsbD i = if x.getLsbD i then y.getLsbD i else z.getLsbD i := by
  simp only [mix0, BitVec.getLsbD_or, BitVec.getLsbD_and, BitVec.getLsbD_not, hi, decide_true, Bool.true_and]
  cases x.getLsbD i <;> simp

theorem getLsbD_mix1 (x y z : Word) (i : Nat) :
    (mix1 x y z).getLsbD i = ((x.getLsbD i ^^ y.getLsbD i) ^^ z.getLsbD i) := by
  rw [mix1, BitVec.getLsbD_xor, BitVec.getLsbD_xor]

/-- The function of rounds 40-59 is the majority of the three bits. -/
theorem getLsbD_mix2 (x y z : Word) (i : Nat) :
    (mix2 x y z).getLsbD i = decide (2 ≤ (x.getLsbD i).toNat + (y.getLsbD i).toNat + (z.getLsbD i).toNat) := by
  simp only [mix2, BitVec.getLsbD_or, BitVec.getLsbD_and]
  cases x.getLsbD i <;> cases y.getLsbD i <;> cases z.getLsbD i <;> rfl

theorem mix3_eq_mix1 (x y z : Word) : mix3 x y z = mix1 x y z := rfl

/-- Settles O51: each group of rounds names its function, whose bits are those of its operands. -/
theorem mixingFunctionsBitByBit : Obligations.MixingFunctionsBitByBit := by
  intro x y z i hi
  refine ⟨?_, ?_, ?_, ?_⟩
  · intro t ht
    rw [mix_eq_mix0 ht, getLsbD_mix0 x y z hi]
  · intro t hl hu
    rw [mix_eq_mix1 hl hu, getLsbD_mix1]
  · intro t hl hu
    rw [mix_eq_mix2 hl hu, getLsbD_mix2]
  · intro t hl hu
    rw [mix_eq_mix3 hl hu, mix3_eq_mix1, getLsbD_mix1]

/-- The constant of each group of 20 rounds (R103). -/
theorem roundConst_eq (t : Nat) :
    roundConst t =
      if t < 20 then 0x5a827999 else if t < 40 then 0x6ed9eba1 else if t < 60 then 0x8f1bbcdc else 0xca62c1d6 := by
  unfold roundConst
  split
  · next hg => rw [if_pos (by omega)]
  · next hg => rw [if_neg (by omega), if_pos (by omega)]
  · next hg => rw [if_neg (by omega), if_neg (by omega), if_pos (by omega)]
  · next h0 h1 h2 =>
    have hg : t / 20 ≠ 0 ∧ t / 20 ≠ 1 ∧ t / 20 ≠ 2 := ⟨h0, h1, h2⟩
    rw [if_neg (by omega), if_neg (by omega), if_neg (by omega)]

end Sys2Proof.Machine
end

section
/-!
The message schedule (spec/40_compression.md R101, R102): its words at every index.
-/
namespace Sys2Proof.Machine

/-- Word j is bytes 4j to 4j + 3 side by side, the first one most significant (R101, spec/20_memory.md R52). -/
theorem blockWords_getD {bytes : List Byte} {j : Nat} (h : 4 * j + 3 < bytes.length) :
    (blockWords bytes).getD j 0 =
      bytes.getD (4 * j) 0 ++ bytes.getD (4 * j + 1) 0 ++ bytes.getD (4 * j + 2) 0 ++ bytes.getD (4 * j + 3) 0 := by
  induction bytes using blockWords.induct generalizing j with
  | case1 b0 b1 b2 b3 rest ih =>
    cases j with
    | zero => exact be32_eq_append b0 b1 b2 b3
    | succ j => exact ih (by simp only [List.length_cons] at h; omega)
  | case2 bytes hshort =>
    match bytes, hshort with
    | [], _ | [_], _ | [_, _], _ | [_, _, _], _ => simp at h
    | b0 :: b1 :: b2 :: b3 :: rest, hshort => exact absurd rfl (hshort b0 b1 b2 b3 rest)

/-- Extending the schedule keeps the words that are there. -/
theorem extendSchedule_getD {w : List Word} {m n j : Nat} (hmn : m ≤ n) (hj : j < w.length + m) :
    (extendSchedule w n).getD j 0 = (extendSchedule w m).getD j 0 := by
  induction n, hmn using Nat.le_induction with
  | base => rfl
  | succ n hmn ih =>
    rw [extendSchedule_succ, List.getD_append _ _ _ _ (by rw [extendSchedule_length]; omega), ih]

/-- The word a schedule is extended by: the recurrence of R102 over the words before it. -/
theorem extendSchedule_getD_last {w : List Word} (hw : w.length = 16) (n : Nat) :
    (extendSchedule w (n + 1)).getD (16 + n) 0 = scheduleWord (extendSchedule w n) (16 + n) := by
  have hlen : (extendSchedule w n).length = 16 + n := by rw [extendSchedule_length, hw]
  rw [extendSchedule_succ, List.getD_append_right _ _ _ _ (by omega), hlen, Nat.sub_self]
  rfl

/-- The recurrence reads words before t only. -/
theorem scheduleWord_congr {w w' : List Word} {t : Nat} (ht : 16 ≤ t) (h : ∀ j < t, w.getD j 0 = w'.getD j 0) :
    scheduleWord w t = scheduleWord w' t := by
  rw [scheduleWord, scheduleWord, h (t - 3) (by omega), h (t - 8) (by omega), h (t - 14) (by omega),
    h (t - 16) (by omega)]

section
variable {blk : List Byte}

theorem blockWords_length_of_block (h : blk.length = 64) : (blockWords blk).length = 16 := by
  rw [blockWords_length, h]

theorem schedule_length (h : blk.length = 64) : (schedule blk).length = 80 := by
  rw [schedule, extendSchedule_length, blockWords_length_of_block h]

/-- The schedule as far as it has been computed agrees with the whole of it. -/
theorem schedule_getD_eq_extendSchedule (h : blk.length = 64) {n j : Nat} (hn : n ≤ 64) (hj : j < 16 + n) :
    (schedule blk).getD j 0 = (extendSchedule (blockWords blk) n).getD j 0 :=
  extendSchedule_getD hn (by rw [blockWords_length_of_block h]; exact hj)

theorem schedule_getD_of_lt (h : blk.length = 64) {j : Nat} (hj : j < 16) :
    (schedule blk).getD j 0 =
      blk.getD (4 * j) 0 ++ blk.getD (4 * j + 1) 0 ++ blk.getD (4 * j + 2) 0 ++ blk.getD (4 * j + 3) 0 := by
  rw [schedule_getD_eq_extendSchedule h (Nat.zero_le 64) hj, extendSchedule_zero, blockWords_getD (by omega)]

theorem schedule_getD_of_ge (h : blk.length = 64) {t : Nat} (ht : 16 ≤ t) (htu : t < 80) :
    (schedule blk).getD t 0 = scheduleWord (schedule blk) t := by
  obtain ⟨n, rfl⟩ := Nat.exists_eq_add_of_le ht
  calc (schedule blk).getD (16 + n) 0
      = (extendSchedule (blockWords blk) (n + 1)).getD (16 + n) 0 :=
        schedule_getD_eq_extendSchedule h (by omega) (by omega)
    _ = scheduleWord (extendSchedule (blockWords blk) n) (16 + n) :=
        extendSchedule_getD_last (blockWords_length_of_block h) n
    _ = scheduleWord (schedule blk) (16 + n) :=
        scheduleWord_congr ht fun _ hj => (schedule_getD_eq_extendSchedule h (by omega) hj).symm

end

/-- Settles O52: the block's words, and then the recurrence over the whole schedule. -/
theorem scheduleRecurrence : Obligations.ScheduleRecurrence :=
  fun _ h => ⟨schedule_length h, fun _ hj => schedule_getD_of_lt h hj, fun _ ht htu => schedule_getD_of_ge h ht htu⟩

end Sys2Proof.Machine
end

section
/-!
The compression function (spec/40_compression.md R108-R110): schedule words and working variables that follow the rules are those of
`schedule` and `runRounds`.
-/
namespace Sys2Proof.Machine

/-- R101 and R102 determine the 80 schedule words. -/
theorem eq_schedule_of_recurrence {blk : List Byte} {w : Nat → Word} (h : blk.length = 64)
    (hblock : ∀ j < 16, w j =
      blk.getD (4 * j) 0 ++ blk.getD (4 * j + 1) 0 ++ blk.getD (4 * j + 2) 0 ++ blk.getD (4 * j + 3) 0)
    (hrec : ∀ t, 16 ≤ t → t < 80 → w t = rotl (w (t - 3) ^^^ w (t - 8) ^^^ w (t - 14) ^^^ w (t - 16)) 1) (t : Nat)
    (ht : t < 80) : w t = (schedule blk).getD t 0 := by
  induction t using Nat.strong_induction_on with
  | _ t ih =>
    rcases Nat.lt_or_ge t 16 with hlt | hge
    · rw [hblock t hlt, schedule_getD_of_lt h hlt]
    · rw [hrec t hge ht, schedule_getD_of_ge h hge ht, scheduleWord, ih (t - 3) (by omega) (by omega),
        ih (t - 8) (by omega) (by omega), ih (t - 14) (by omega) (by omega), ih (t - 16) (by omega) (by omega)]

/-- Working variables that take a round at a time are those of `runRounds`. -/
theorem eq_runRounds_of_roundStep {ws : List Word} {v : Nat → Work} {n : Nat}
    (hstep : ∀ t < n, v (t + 1) = roundStep t (ws.getD t 0) (v t)) : v n = runRounds ws (v 0) n := by
  induction n with
  | zero => rfl
  | succ n ih => rw [hstep n n.lt_succ_self, ih fun t ht => hstep t (by omega), runRounds_succ]

/-- Settles O53: the words are the schedule, the variables those of its 80 rounds. -/
theorem compressionIsEightyRounds : Obligations.CompressionIsEightyRounds := by
  intro h blk w v hlen hblock hrec hload hround
  have hstep : ∀ t < 80, v (t + 1) = roundStep t ((schedule blk).getD t 0) (v t) := by
    intro t ht
    rw [hround t ht, roundStep, roundConst_eq, eq_schedule_of_recurrence hlen hblock hrec t ht]
  have hv0 : v 0 = loadWork h := hload
  rw [compress, ← hv0, ← eq_runRounds_of_roundStep hstep, addWork]

end Sys2Proof.Machine
end

section
/-!
Phase COMPRESS of the reference sequencer (spec/40_compression.md R112): the state before each of its rounds.
-/
namespace Sys2Proof.Machine

/-- The block in phase COMPRESS on the context c, with the first n rounds done: the schedule has the words of those rounds, and after the
last round no round index is left (R112). -/
def State.afterRounds (s : State) (c : Ctx) (n : Nat) : State :=
  { s with
    trans := { s.trans with
      work := some (runRounds (schedule c.buf) (loadWork c.h) n)
      sched := some (extendSchedule (blockWords c.buf) (n - 16))
      round := if n < 80 then some n else none } }

/-- Computing word n when n ≥ 16, just before round n uses it. -/
theorem extendSchedule_succ_sub (w : List Word) (n : Nat) :
    (if n < 16 then extendSchedule w (n - 16)
      else extendSchedule w (n - 16) ++ [scheduleWord (extendSchedule w (n - 16)) n]) = extendSchedule w (n + 1 - 16) := by
  split
  · congr 1
    omega
  · obtain ⟨m, rfl⟩ := Nat.exists_eq_add_of_le (by omega : 16 ≤ n)
    have hold : 16 + m - 16 = m := by omega
    have hnew : 16 + m + 1 - 16 = m + 1 := by omega
    rw [hold, hnew, extendSchedule_succ]

section
variable {s : State} {c : Ctx} {r : Caller}

/-- Step 0 loads the block's words and the working variables. -/
theorem seqCompress_load (hact : s.activeCtx = some c) (hfull : c.buf.length = 64) (hret : s.trans.ret = some r)
    (hwork : s.trans.work = none) (hsched : s.trans.sched = none) (hround : s.trans.round = none) :
    seqCompress s = .next (s.afterRounds c 0) := by
  simp only [seqCompress, hact, hret, hwork, hsched, hround, memRead_all hfull, State.afterRounds]
  rfl

/-- Step n + 1 runs round n. -/
theorem seqCompress_round {n : Nat} (hact : s.activeCtx = some c) (hfull : c.buf.length = 64) (hret : s.trans.ret = some r)
    (hn : n < 80) : seqCompress (s.afterRounds c n) = .next (s.afterRounds c (n + 1)) := by
  have hact' : (s.afterRounds c n).activeCtx = some c := hact
  have hret' : (s.afterRounds c n).trans.ret = some r := hret
  have hword := schedule_getD_eq_extendSchedule hfull (n := n + 1 - 16) (j := n) (by omega) (by omega)
  have hnext : (if n < 79 then some (n + 1) else none) = if n + 1 < 80 then some (n + 1) else none := by
    simp only [Nat.succ_lt_succ_iff]
  simp only [seqCompress, hact', hret']
  simp only [State.afterRounds, if_pos hn, hret, extendSchedule_succ_sub, ← hword, hnext, runRounds_succ]

/-- Step 81 adds the working variables into H, empties BUF and returns to the caller. -/
theorem seqCompress_finish (hact : s.activeCtx = some c) (hret : s.trans.ret = some r) (hwork : s.trans.work = none)
    (hsched : s.trans.sched = none) (hround : s.trans.round = none) :
    seqCompress (s.afterRounds c 80) =
      .next (State.setActive { c with h := compress c.h c.buf, buf := [] }
        { s with phase := r.phase, trans := { s.trans with ret := none } }) := by
  have hact' : (s.afterRounds c 80).activeCtx = some c := hact
  have hret' : (s.afterRounds c 80).trans.ret = some r := hret
  have hnone : { s.trans with work := none, sched := none, round := none, ret := none } = { s.trans with ret := none } := by
    rw [← hwork, ← hsched, ← hround]
  simp only [seqCompress, hact', hret']
  simp only [State.afterRounds, if_neg (Nat.lt_irrefl 80), hnone, compress]

/-- n rounds are n steps. -/
theorem tickN_rounds {n : Nat} (hr : s.rst = false) (hp : s.phase = .compress) (hact : s.activeCtx = some c)
    (hfull : c.buf.length = 64) (hret : s.trans.ret = some r) (hn : n ≤ 80) :
    tickN n (s.afterRounds c 0) = .next (s.afterRounds c n) := by
  induction n with
  | zero => rfl
  | succ n ih =>
    have htick : tick (s.afterRounds c n) = .next (s.afterRounds c (n + 1)) :=
      (tick_compress (s := s.afterRounds c n) hr hp).trans (seqCompress_round hact hfull hret (by omega))
    rw [tickN_add (ih (by omega)), tickN_succ_next 0 htick, tickN_zero]

end

/-- Settles O56: the load, the 80 rounds, and the final addition. -/
theorem compressPhaseComputesCompress : Obligations.CompressPhaseComputesCompress := by
  intro s c r hr hp hact hfull hret hwork hsched hround
  have hload : tick s = .next (s.afterRounds c 0) :=
    (tick_compress hr hp).trans (seqCompress_load hact hfull hret hwork hsched hround)
  have hfinish := (tick_compress (s := s.afterRounds c 80) hr hp).trans
    (seqCompress_finish hact hret hwork hsched hround)
  rw [tickN_succ_next 81 hload, tickN_add (m := 80) (n := 1) (tickN_rounds hr hp hact hfull hret le_rfl),
    tickN_succ_next 0 hfinish, tickN_zero]

end Sys2Proof.Machine
end

section
/-!
The three steps of UPDATE (spec/41_update.md R141-R144): what `Ctx.update` does to an empty buffer and to one that the payload fills.
-/
namespace Sys2Proof.Machine

/-- R143: the full blocks, in order. -/
theorem Ctx.absorbBlocks_h (c : Ctx) (p : List Byte) : (c.absorbBlocks p).h = (wholeBlocks p).foldl compress c.h :=
  compressBlocks_eq_foldl (p.length / 64) c.h p

/-- R144: the bytes after them. -/
theorem Ctx.absorbBlocks_buf (c : Ctx) (p : List Byte) : (c.absorbBlocks p).buf = p.drop (64 * (p.length / 64)) := rfl

/-- LEN wraps modulo 2^64 (R141). -/
theorem Ctx.update_len_toNat (c : Ctx) (p : List Byte) : (c.update p).len.toNat = (c.len.toNat + p.length) % 2 ^ 64 := by
  rw [Ctx.update_len, payloadCount, BitVec.toNat_add, BitVec.toNat_ofNat, Nat.add_mod_mod]

theorem Ctx.update_of_empty {c : Ctx} (h : c.buf = []) (p : List Byte) :
    c.update p = Ctx.absorbBlocks { c with len := c.len + payloadCount p } p := by
  have hnone : ¬ 0 < c.buf.length := by simp [h]
  simp only [Ctx.update, if_neg hnone]

/-- Step 1 takes as many payload bytes as fill the buffer, compresses it, and leaves the rest to steps 2 and 3 (R142). -/
theorem Ctx.update_of_fills {c : Ctx} {filler : List Byte} (hne : c.buf ≠ []) (hfull : c.buf.length + filler.length = 64)
    (rest : List Byte) :
    c.update (filler ++ rest) = Ctx.absorbBlocks
      { h := compress c.h (c.buf ++ filler), len := c.len + payloadCount (filler ++ rest), buf := [] } rest := by
  have hpos : 0 < c.buf.length := List.length_pos_iff.2 hne
  have hk : min (64 - c.buf.length) (filler ++ rest).length = filler.length := by
    rw [List.length_append]
    omega
  have hlen : (c.buf ++ filler).length = 64 := List.length_append.trans hfull
  simp only [Ctx.update, if_pos hpos, hk, List.take_left, List.drop_left, memWrite_length_self, if_pos hlen, memRead_all hlen]

/-- Settles O23, by what the buffer holds: nothing, bytes that the payload does not fill up to a block, bytes that it does. -/
theorem updateInThreeSteps : Obligations.UpdateInThreeSteps := by
  intro p s hs hlt
  have hctx : (effectOf (.update p) s).ctx = s.ctx.update p := updateEffect_ctx p s
  refine ⟨_, exec_ready hs (.update p), ?_⟩
  rw [hctx]
  refine ⟨s.ctx.update_len_toNat p, ?_, fun hne => ⟨?_, ?_⟩, ?_⟩
  · intro hempty
    rw [Ctx.update_of_empty hempty]
    exact ⟨Ctx.absorbBlocks_h _ p, Ctx.absorbBlocks_buf _ p⟩
  · intro hshort
    rw [Ctx.update_of_short hshort]
    exact ⟨rfl, rfl⟩
  · intro hfills
    obtain ⟨filler, rest, rfl, hfull⟩ : ∃ filler rest, p = filler ++ rest ∧ s.ctx.buf.length + filler.length = 64 :=
      ⟨p.take (64 - s.ctx.buf.length), p.drop (64 - s.ctx.buf.length), (List.take_append_drop _ p).symm, by
        rw [List.length_take]; omega⟩
    refine ⟨filler, rest, rfl, hfull, ?_⟩
    rw [Ctx.update_of_fills hne hfull]
    exact ⟨Ctx.absorbBlocks_h _ rest, Ctx.absorbBlocks_buf _ rest⟩
  · rw [Ctx.update_buf_length hlt]
    exact Nat.mod_lt _ (by decide)

end Sys2Proof.Machine
end

section
/-!
The outputs across CLEAR and UPDATE (spec/41_update.md R148, spec/44_host_commands.md R210): a command that produces no digest writes none
of the output registers, and a bus shows nothing but its register and DVALID.
-/
namespace Sys2Proof.Machine

theorem State.digestPort_congr {s t : State} (hv : t.status.dvalid = s.status.dvalid) (hd : t.digest = s.digest) :
    t.digestPort = s.digestPort := by
  rw [State.digestPort, State.digestPort, hv, hd]

theorem State.hexPort_congr {s t : State} (hv : t.status.dvalid = s.status.dvalid) (hx : t.hex = s.hex) :
    t.hexPort = s.hexPort := by
  rw [State.hexPort, State.hexPort, hv, hx]

theorem effectOf_outputs {i : Instr} (hi : producesDigest i.op = false) (s : State) :
    (effectOf i s).digest = s.digest ∧ (effectOf i s).hex = s.hex ∧ (effectOf i s).status.dvalid = s.status.dvalid := by
  cases i with
  | clear => exact ⟨rfl, rfl, rfl⟩
  | update p => exact ⟨rfl, rfl, rfl⟩
  | finalize p => cases hi
  | eval p => cases hi

/-- Out of reset such a command is its effect, or the word is held. -/
theorem exec_outputs {i : Instr} {s t : State} (hi : producesDigest i.op = false) (hr : s.rst = false)
    (h : exec i s = .next t) :
    t.digest = s.digest ∧ t.hex = s.hex ∧ t.status.dvalid = s.status.dvalid := by
  rw [exec_eq] at h
  obtain ⟨hr', -⟩ | ⟨-, rfl⟩ | ⟨-, -, rfl⟩ := whenAccepted_next h
  · rw [hr] at hr'; cases hr'
  · exact effectOf_outputs hi s
  · exact ⟨rfl, rfl, rfl⟩

/-- Settles O25: neither command produces a digest. -/
theorem clearAndUpdateFrame : Obligations.ClearAndUpdateFrame := by
  intro p s t hr h
  obtain ⟨i, hi, hexec⟩ : ∃ i : Instr, producesDigest i.op = false ∧ exec i s = .next t :=
    h.elim (fun h => ⟨.clear, rfl, h⟩) (fun h => ⟨.update p, rfl, h⟩)
  obtain ⟨hdigest, hhex, hdvalid⟩ := exec_outputs hi hr hexec
  obtain ⟨herr, -⟩ := exec_frame hr hexec
  exact ⟨hdigest, hhex, hdvalid, herr, State.digestPort_congr hdvalid hdigest, State.hexPort_congr hdvalid hhex⟩

end Sys2Proof.Machine
end

section
/-!
FINALIZE (spec/42_finalize.md R161-R168): the padding's two numbers, pads and the bit length, the bytes they give, and the command's
effect in terms of them.
-/
namespace Sys2Proof.Machine

theorem padsOf_of_gt {n : Nat} (h : 56 < n % 64) : padsOf n = 120 - n % 64 := by
  have hpos : 120 - n % 64 ≠ 0 := by omega
  simp only [padsOf, gt_iff_lt, if_pos h, if_neg hpos]

theorem padsOf_of_lt {n : Nat} (h : n % 64 < 56) : padsOf n = 56 - n % 64 := by
  have hpos : 56 - n % 64 ≠ 0 := by omega
  simp only [padsOf, gt_iff_lt, if_neg h.not_gt, if_neg hpos]

/-- The 8 bytes left in the block cannot hold the terminator as well as the length field. -/
theorem padsOf_of_eq {n : Nat} (h : n % 64 = 56) : padsOf n = 64 := by
  simp [padsOf, h]

/-- In each of R162's cases the terminator and the zero bytes leave 8 bytes of a block for the length field. -/
theorem padsOf_spec (n : Nat) : 1 ≤ padsOf n ∧ padsOf n ≤ 64 ∧ (n + padsOf n) % 64 = 56 := by
  obtain h | h | h := lt_trichotomy (n % 64) 56
  · rw [padsOf_of_lt h]; omega
  · rw [padsOf_of_eq h]; omega
  · rw [padsOf_of_gt h]; omega

/-- Settles O29, by the three cases of R162. -/
theorem padCount : Obligations.PadCount :=
  fun n =>
    have ⟨hpos, hle, hmod⟩ := padsOf_spec n
    ⟨hpos, hle, hmod, padsOf_of_gt, padsOf_of_lt, padsOf_of_eq⟩

theorem bitLength_toNat (len : DWord) : (bitLength len).toNat = 8 * len.toNat % 2 ^ 64 :=
  BitVec.toNat_mul 8 len

/-- Times 8 is a shift by three, which drops the top three bits of LEN. -/
theorem bitLength_eq_append (len : DWord) : bitLength len = len.extractLsb' 0 61 ++ 0b000#3 := by
  apply BitVec.eq_of_toNat_eq
  rw [bitLength_toNat, BitVec.toNat_append, BitVec.extractLsb'_toNat, BitVec.toNat_ofNat, Nat.zero_mod, Nat.or_zero,
    Nat.shiftRight_zero, Nat.shiftLeft_eq]
  omega

/-- Byte 0 is the most significant (20_memory.md R53). -/
theorem bytesBe64_getElem? (v : DWord) {k : Nat} (hk : k < 8) :
    (bytesBe64 v)[k]? = some (v.extractLsb' (56 - 8 * k) 8) := by
  interval_cases k <;> rfl

/-- Settles O31: the bit length as a number and as bits, and its bytes. -/
theorem lengthFieldIsEightTimesLen : Obligations.LengthFieldIsEightTimesLen :=
  fun len => ⟨bitLength_toNat len, bitLength_eq_append len, fun _ hk => bytesBe64_getElem? (bitLength len) hk⟩

theorem paddedMessage_eq (tail : List Byte) (len : DWord) :
    paddedMessage tail len =
      tail ++ [0x80] ++ List.replicate (padsOf tail.length - 1) 0x00 ++ bytesBe64 (bitLength len) := by
  simp only [paddedMessage, padding, List.append_assoc]

/-- The terminator counts as one of the `pads` bytes. -/
theorem padding_length (n : Nat) (len : DWord) : (padding n len).length = padsOf n + 8 := by
  obtain ⟨hpos, -, -⟩ := padsOf_spec n
  simp only [padding, List.length_append, List.length_singleton, List.length_replicate, bytesBe64_length]
  omega

theorem paddedMessage_length (tail : List Byte) (len : DWord) :
    (paddedMessage tail len).length = tail.length + (padsOf tail.length + 8) := by
  rw [paddedMessage, List.length_append, padding_length]

/-- Settles O30: the padding's bytes in order, and their number from the bounds of pads. -/
theorem paddingBytes : Obligations.PaddingBytes := by
  intro tail len
  obtain ⟨hpos, hle, -⟩ := padsOf_spec tail.length
  refine ⟨?_, paddedMessage_length tail len, by omega, by omega⟩
  rw [paddedMessage_eq, List.append_assoc, List.append_assoc, List.singleton_append]

/-- The last compressions run over the blocks of the padded message, in order (R166). -/
theorem Ctx.finalHash_eq_foldl (c : Ctx) (p : List Byte) :
    c.finalHash p = (wholeBlocks (paddedMessage (c.buf ++ p) (c.len + payloadCount p))).foldl compress c.h :=
  compressBlocks_eq_foldl _ c.h _

/-- Settles O28: pads is `padsOf` of the tail, and the padded message is the model's own. -/
theorem finalizeWritesTheDigest : Obligations.FinalizeWritesTheDigest := by
  intro p s hs
  obtain ⟨hpos, hle, hmod⟩ := padsOf_spec (s.ctx.buf ++ p).length
  refine ⟨_, _, _, exec_ready hs (.finalize p), hpos, hle, hmod,
    paddedMessage_eq (s.ctx.buf ++ p) (s.ctx.len + payloadCount p), ?_⟩
  rw [← Ctx.finalHash_eq_foldl]
  exact ⟨finalizeEffect_digest p s, finalizeEffect_hex p s, finalizeEffect_ctx p s, finalizeEffect_status p s,
    finalizeEffect_phase p s⟩

end Sys2Proof.Machine
end

section
/-!
The digest encoding position by position (spec/43_digest_encoding.md R190-R192, R196): byte k of a word, the two characters of byte i, and
the number of bytes and characters.
-/
namespace Sys2Proof.Machine

/-- Byte 0 is the most significant (20_memory.md R54). -/
theorem bytesBe32_getElem? (x : Word) {k : Nat} (hk : k < 4) :
    (bytesBe32 x)[k]? = some (x.extractLsb' (24 - 8 * k) 8) := by
  interval_cases k <;> rfl

theorem serializeRaw_word (h : Hash) {j : Nat} (hj : j ≤ 4) :
    ((serializeRaw h).drop (4 * j)).take 4 = bytesBe32 (hashWord h j) := by
  interval_cases j <;> rfl

theorem serializeRaw_getElem? (h : Hash) {j k : Nat} (hj : j ≤ 4) (hk : k < 4) :
    (serializeRaw h)[4 * j + k]? = some ((hashWord h j).extractLsb' (24 - 8 * k) 8) := by
  rw [← List.getElem?_drop, ← List.getElem?_take_of_lt hk, serializeRaw_word h hj, bytesBe32_getElem? _ hk]

/-- Settles O41: word j stands at byte 4j, its bytes from the top. -/
theorem rawSerialization : Obligations.RawSerialization :=
  fun h => ⟨serializeRaw_length h, fun _ hj _ hk => serializeRaw_getElem? h (Nat.le_of_lt_succ hj) hk⟩

/-- The digits 0 to 9 (R191). -/
theorem hexChar_toNat_of_digit {v : BitVec 4} (hv : v.toNat ≤ 9) : (hexChar v).toNat = 0x30 + v.toNat := by
  rw [hexChar, if_pos hv]
  bv_omega

/-- The letters a to f (R191). -/
theorem hexChar_toNat_of_letter {v : BitVec 4} (hv : 10 ≤ v.toNat) : (hexChar v).toNat = 0x61 + (v.toNat - 10) := by
  rw [hexChar, if_neg (by omega)]
  bv_omega

/-- The bytes before byte i take two characters each, so its own stand at 2i and 2i + 1. -/
theorem hexOfBytes_getElem? {bs : List Byte} {i : Nat} {b : Byte} (h : bs[i]? = some b) :
    (hexOfBytes bs)[2 * i]? = some (hexChar (b.extractLsb' 4 4)) ∧
      (hexOfBytes bs)[2 * i + 1]? = some (hexChar (b.extractLsb' 0 4)) := by
  induction bs generalizing i with
  | nil => cases h
  | cons c cs ih =>
    cases i with
    | zero =>
      obtain rfl : c = b := Option.some.inj h
      exact ⟨rfl, rfl⟩
    | succ i => exact ih h

/-- Settles O42: hexchar by its two cases, and the hex string as the spelling of the raw bytes. -/
theorem hexSpellsEachByte : Obligations.HexSpellsEachByte :=
  ⟨fun _ => ⟨hexChar_toNat_of_digit, hexChar_toNat_of_letter⟩, fun _ _ _ hb => hexOfBytes_getElem? hb⟩

@[simp] theorem serializeHex_length (h : Hash) : (serializeHex h).length = 40 := by
  rw [serializeHex, hexOfBytes_length, serializeRaw_length]

/-- Settles O44: both outputs of either command are serializations of five words. -/
theorem digestLengthsAreFixed : Obligations.DigestLengthsAreFixed :=
  fun p s hs =>
    ⟨_, _, _, _, _, _, exec_ready hs (.finalize p), exec_ready hs (.eval p),
      finalizeEffect_digest p s, finalizeEffect_hex p s, evalEffect_digest p s, evalEffect_hex p s,
      serializeRaw_length _, serializeHex_length _, serializeRaw_length _, serializeHex_length _⟩

end Sys2Proof.Machine
end

section
/-!
CLEAR, EVAL and the reinitialization that ends FINALIZE (spec/44_host_commands.md R210, R211, spec/42_finalize.md R168): what each leaves
in the context and the outputs.
-/
namespace Sys2Proof.Machine

/-- Settles O22: CLEAR's effect field by field. -/
theorem clearResetsTheContext : Obligations.ClearResetsTheContext :=
  fun s hs =>
    ⟨_, exec_ready hs .clear, rfl, rfl, rfl, clearEffect_digest s, clearEffect_hex s, clearEffect_status s,
      clearEffect_phase s⟩

/-- Settles O33: both commands end in the initial context. -/
theorem finalizeReinitializes : Obligations.FinalizeReinitializes := by
  intro p s hs
  have hctx : (finalizeEffect p s).ctx = Ctx.initial := finalizeEffect_ctx p s
  exact ⟨_, _, exec_ready hs (.finalize p), exec_ready hs .clear, hctx.trans (clearEffect_ctx s).symm,
    congrArg Ctx.h hctx, congrArg Ctx.len hctx, congrArg Ctx.buf hctx,
    congrArg Option.isSome (finalizeEffect_digest p s), congrArg Option.isSome (finalizeEffect_hex p s)⟩

/-- Settles O37: EVAL's effect field by field. -/
theorem evalHashesItsPayloadAlone : Obligations.EvalHashesItsPayloadAlone :=
  fun p s hs =>
    ⟨_, exec_ready hs (.eval p), evalEffect_digest p s, evalEffect_hex p s, evalEffect_status p s, evalEffect_ctx p s,
      evalEffect_phase p s⟩

/-- Out of reset EVAL runs on a context of its own, or its word is held (R211, spec/10_state.md R36). -/
theorem exec_eval_ctx {p : List Byte} {s t : State} (hr : s.rst = false) (h : exec (.eval p) s = .next t) :
    t.ctx = s.ctx := by
  rw [exec_eq] at h
  obtain ⟨hr', -⟩ | ⟨-, rfl⟩ | ⟨-, -, rfl⟩ := whenAccepted_next h
  · rw [hr] at hr'; cases hr'
  · exact evalEffect_ctx p s
  · rfl

/-- Settles O38: the whole context is kept, and ERR by every command. -/
theorem evalFrame : Obligations.EvalFrame := by
  intro p s t hr h
  have hctx : t.ctx = s.ctx := exec_eval_ctx hr h
  obtain ⟨herr, -⟩ := exec_frame hr h
  exact ⟨congrArg Ctx.h hctx, congrArg Ctx.len hctx, fun k => by rw [hctx], herr⟩

end Sys2Proof.Machine
end

section
/-!
An EVAL within a message (spec/44_host_commands.md R211, spec/95_test_vectors.md P3). Two states that agree on what
a message depends on, as those before and after an EVAL do, stay so under the same commands, and FINALIZE overwrites the rest.
-/
namespace Sys2Proof.Machine

/-- The effect of a list of commands, in order. -/
def effectOfAll (is : List Instr) (s : State) : State := is.foldl (fun s i => effectOf i s) s

@[simp] theorem effectOfAll_nil (s : State) : effectOfAll [] s = s := rfl

@[simp] theorem effectOfAll_cons (i : Instr) (is : List Instr) (s : State) :
    effectOfAll (i :: is) s = effectOfAll is (effectOf i s) := rfl

theorem effectOfAll_append (is js : List Instr) (s : State) :
    effectOfAll (is ++ js) s = effectOfAll js (effectOfAll is s) := List.foldl_append

theorem effectOfAll_ready {s : State} (hs : s.Ready) (is : List Instr) : (effectOfAll is s).Ready := by
  induction is generalizing s with
  | nil => exact hs
  | cons i is ih => exact ih (effectOf_ready hs i)

/-- A ready block runs any list of commands to its end. -/
theorem execAll_ready {s : State} (hs : s.Ready) (is : List Instr) : execAll is s = .next (effectOfAll is s) := by
  induction is generalizing s with
  | nil => rfl
  | cons i is ih => rw [execAll_cons_ready hs, ih (effectOf_ready hs i), effectOfAll_cons]

/-- All of a state that a message depends on between its commands: the context, ERR, the phase and the host's side of the ports. The
outputs, DVALID, BUSY and the transient registers may differ. -/
def State.SameMessage (s t : State) : Prop :=
  s.ctx = t.ctx ∧ s.status.err = t.status.err ∧ s.phase = t.phase ∧ s.rst = t.rst ∧ s.cmdIn = t.cmdIn ∧ s.payIn = t.payIn

/-- The context after a command depends on the context before it alone (spec/10_state.md R38). -/
theorem effectOf_ctx_congr (i : Instr) {s t : State} (h : s.ctx = t.ctx) : (effectOf i s).ctx = (effectOf i t).ctx := by
  cases i with
  | clear => rfl
  | update p => exact congrArg (Ctx.update · p) h
  | finalize p => rfl
  | eval p => exact h

theorem effectOf_sameMessage {s t : State} (h : s.SameMessage t) (i : Instr) :
    (effectOf i s).SameMessage (effectOf i t) := by
  obtain ⟨hctx, herr, -, hrst, hcmd, hpay⟩ := h
  obtain ⟨sphase, -, srst, scmd, spay, serr, -⟩ := effectOf_frame i s
  obtain ⟨tphase, -, trst, tcmd, tpay, terr, -⟩ := effectOf_frame i t
  exact ⟨effectOf_ctx_congr i hctx, by rw [serr, terr, herr], by rw [sphase, tphase], by rw [srst, trst, hrst],
    by rw [scmd, tcmd, hcmd], by rw [spay, tpay, hpay]⟩

theorem effectOfAll_sameMessage {s t : State} (h : s.SameMessage t) (is : List Instr) :
    (effectOfAll is s).SameMessage (effectOfAll is t) := by
  induction is generalizing s t with
  | nil => exact h
  | cons i is ih => exact ih (effectOf_sameMessage h i)

/-- EVAL writes the outputs and nothing a message depends on (R211). -/
theorem evalEffect_sameMessage_self {s : State} (hs : s.Ready) (p : List Byte) : (evalEffect p s).SameMessage s :=
  ⟨evalEffect_ctx p s, rfl, hs.2.symm, evalEffect_rst p s, evalEffect_cmdIn p s, evalEffect_payIn p s⟩

/-- FINALIZE writes every register from what a message depends on (spec/42_finalize.md R167, R168). -/
theorem finalizeEffect_eq (q : List Byte) (s : State) :
    finalizeEffect q s =
      { ctx := Ctx.initial
        digest := some (serializeRaw (s.ctx.finalHash q))
        hex := some (serializeHex (s.ctx.finalHash q))
        status := { busy := false, dvalid := true, err := s.status.err }
        phase := .idle
        trans := Transient.empty
        rst := s.rst
        cmdIn := s.cmdIn
        payIn := s.payIn } := rfl

theorem finalizeEffect_congr {s t : State} (h : s.SameMessage t) (q : List Byte) :
    finalizeEffect q s = finalizeEffect q t := by
  obtain ⟨hctx, herr, -, hrst, hcmd, hpay⟩ := h
  rw [finalizeEffect_eq, finalizeEffect_eq, hctx, herr, hrst, hcmd, hpay]

/-- Settles O39: after the EVAL only what FINALIZE overwrites differs, and the commands ys keep it so. -/
theorem evalDoesNotDisturbAMessage : Obligations.EvalDoesNotDisturbAMessage := by
  intro xs ys p q s hs
  have hsame : (effectOfAll ys (evalEffect p (effectOfAll xs s))).SameMessage (effectOfAll ys (effectOfAll xs s)) :=
    effectOfAll_sameMessage (evalEffect_sameMessage_self (effectOfAll_ready hs xs) p) ys
  refine ⟨_, execAll_ready hs _, ?_⟩
  rw [execAll_ready hs]
  simp only [effectOfAll_append, effectOfAll_cons, effectOfAll_nil]
  exact congrArg Host.Outcome.next (finalizeEffect_congr hsame q).symm

end Sys2Proof.Machine
end

section
/-!
HALT is entered from IDLE only, by an illegal word (spec/60_exceptions.md R231, R232): the phase after each update of the sequencer, and
the illegal word's own step.
-/
namespace Sys2Proof.Machine

variable {s t : State}

@[simp] theorem Caller.phase_halted (r : Caller) : r.phase.halted = false := by cases r <;> rfl
@[simp] theorem seqPayloadDone_halted (s : State) : (seqPayloadDone s).phase.halted = false := by
  unfold seqPayloadDone; split <;> rfl
theorem seqTakeByte_halted (b : Byte) (r : DWord) (c : Ctx) (hp : s.phase.halted = false) :
    (seqTakeByte b r c s).phase.halted = false := by
  unfold seqTakeByte; dsimp only; split
  · rfl
  · simpa using hp
@[simp] theorem seqPadCompress_phase (c : Ctx) (buf : List Byte) (next : PadStep) (s : State) :
    (seqPadCompress c buf next s).phase = .compress := by simp [seqPadCompress]
@[simp] theorem seqPublish_phase (raw hex : List Byte) (s : State) : (seqPublish raw hex s).phase = .idle := by
  unfold seqPublish; split <;> rfl

/-- No step of a running command enters HALT: COUNT words, payload bytes and internal steps raise nothing (R231). -/
theorem tick_not_halted_of_running (hr : s.rst = false) (hrun : s.phase.running = true) (h : tick s = .next t) :
    t.phase.halted = false := by
  have hs : s.phase.halted = false := Phase.halted_of_running hrun
  cases hp : s.phase with
  | idle => rw [hp] at hrun; cases hrun
  | cntLo =>
    rw [tick_cntLo hr hp] at h
    obtain ⟨-, rfl⟩ | ⟨w, ws, -, rfl⟩ := seqCntLo_next h
    · exact hs
    · rfl
  | cntHi =>
    rw [tick_cntHi hr hp] at h
    obtain ⟨-, rfl⟩ | ⟨hi, ws, lo, c, -, -, -, rfl⟩ := seqCntHi_next h
    · exact hs
    · simp [Phase.halted]
  | absorb =>
    rw [tick_absorb hr hp] at h
    obtain ⟨r, c, -, -, ⟨-, rfl⟩ | ⟨-, -, rfl⟩ | ⟨-, b, bs, -, rfl⟩⟩ := seqAbsorb_next h
    · exact seqPayloadDone_halted s
    · exact hs
    · exact seqTakeByte_halted b r c hs
  | compress =>
    rw [tick_compress hr hp] at h
    obtain ⟨c, ret, -, -, ⟨-, -, -, rfl⟩ | ⟨v, w, w', k, -, -, -, -, rfl⟩ | ⟨v, w, -, -, -, rfl⟩⟩ := seqCompress_next h
    · exact hs
    · exact hs
    · simp
  | pad =>
    rw [tick_pad hr hp] at h
    obtain ⟨c, -, ⟨-, -, rfl⟩ | ⟨-, -, rfl⟩ | ⟨-, rfl⟩ | ⟨-, rfl⟩⟩ := seqPad_next h
    · simp [Phase.halted]
    · simpa using hs
    · simp [Phase.halted]
    · rfl
  | encode =>
    rw [tick_encode hr hp] at h
    obtain ⟨c, -, ⟨-, rfl⟩ | ⟨e, -, ⟨-, rfl⟩ | ⟨-, -, rfl⟩ | ⟨-, -, rfl⟩⟩⟩ := seqEncode_next h
    · exact hs
    · exact hs
    · exact hs
    · simp [Phase.halted]
  | halt w => rw [hp] at hrun; cases hrun

/-- A step of the sequencer that ends in HALT took an illegal word in IDLE (R231). -/
theorem tick_enters_halt {w : Word} (h : tick s = .next t) (ht : t.phase = .halt w) :
    s.Ready ∧ decodeOp w = none ∧ ∃ ws, s.cmdIn = w :: ws ∧ t.cmdIn = ws := by
  cases hr : s.rst with
  | true =>
    rw [tick_rst hr] at h
    cases h
    cases ht
  | false =>
    cases hp : s.phase with
    | idle =>
      rw [tick_idle ⟨hr, hp⟩] at h
      obtain ⟨-, rfl⟩ | ⟨w', ws, hc, ⟨hd, rfl⟩ | ⟨-, rfl⟩ | ⟨op, -, -, rfl⟩⟩ := seqIdle_next h
      · cases hp.symm.trans ht
      · cases ht
        exact ⟨⟨hr, hp⟩, hd, ws, hc, rfl⟩
      · cases ht
      · cases ht
    | halt w' => cases (tick_halt hr hp).symm.trans h
    | _ =>
      have hnot := tick_not_halted_of_running hr (by rw [hp]; rfl) h
      rw [ht] at hnot
      cases hnot

/-- Settles O16: a whole command ends in IDLE, so the step is one of the sequencer. -/
theorem haltIsEnteredOnlyByAnIllegalWord : Obligations.HaltIsEnteredOnlyByAnIllegalWord := by
  intro s t w h ht
  obtain htick | ⟨i, ws, bs, hready, -, hexec⟩ := step_cases s
  · exact tick_enters_halt (htick ▸ h) ht
  · have hready' : State.Ready { s with cmdIn := ws, payIn := bs } := hready
    rw [hexec, exec_ready hready'] at h
    cases h
    cases (effectOf_ready hready' i).2.symm.trans ht

theorem decode_illegal {w : Word} (hd : decodeOp w = none) (ws : List Word) (bs : List Byte) :
    decode (w :: ws) bs = .illegal w ws := by
  simp only [decode, hd]

theorem tick_illegal_word {w : Word} {ws : List Word} (hs : s.Ready) (hc : s.cmdIn = w :: ws) (hd : decodeOp w = none) :
    tick s = .next (State.raiseIllegal w { s with cmdIn := ws }) := by
  rw [tick_idle hs]
  simp only [seqIdle, hc, hd]

/-- An illegal word is no command's transaction, so its step is the sequencer's (log entry 1). -/
theorem step_illegal_word {w : Word} {ws : List Word} (hs : s.Ready) (hc : s.cmdIn = w :: ws) (hd : decodeOp w = none) :
    step s = .next (State.raiseIllegal w { s with cmdIn := ws }) := by
  obtain htick | ⟨i, ws', bs, -, hdec, -⟩ := step_cases s
  · exact htick.trans (tick_illegal_word hs hc hd)
  · rw [hc, decode_illegal hd] at hdec
    cases hdec

theorem State.cmdReady_of_halt {w : Word} (hp : s.phase = .halt w) : s.cmdReady = false := by
  simp only [State.cmdReady, hp, Bool.and_false]

theorem State.inReady_of_halt {w : Word} (hp : s.phase = .halt w) : s.inReady = false :=
  State.inReady_of_ne_absorb (by simp [hp])

/-- Settles O15: the word's step is `State.raiseIllegal`, and in HALT no port is ready. -/
theorem illegalWordEntersHalt : Obligations.IllegalWordEntersHalt :=
  fun _ _ _ hs hc hd => ⟨_, step_illegal_word hs hc hd, rfl, State.cmdReady_of_halt rfl, State.inReady_of_halt rfl⟩

end Sys2Proof.Machine
end

section
/-!
HALT is left by reset only (spec/60_exceptions.md R233, R234).
-/
namespace Sys2Proof.Machine

variable {s : State}

theorem step_halt {w : Word} (hr : s.rst = false) (hp : s.phase = .halt w) : step s = .fault (.illegalCommand w) :=
  (step_eq_tick (by simp [hp])).trans (tick_halt hr hp)

/-- Settles O17: HALT is not IDLE; out of reset the step and every command fault; in reset the step is reset. -/
theorem haltIsLeftOnlyByReset : Obligations.HaltIsLeftOnlyByReset := by
  intro s w hp
  refine ⟨?_, ?_, ?_⟩
  · rintro ⟨hidle, -⟩
    cases hp.symm.trans hidle
  · intro hr
    exact ⟨step_halt hr hp, fun i => (exec_eq i s).trans (whenAccepted_halt hr hp _), State.cmdReady_of_halt hp,
      State.inReady_of_halt hp⟩
  · intro hr
    refine ⟨_, step_rst hr, ?_, rfl, rfl⟩
    rw [← hr]
    rfl

end Sys2Proof.Machine
end

section
/-!
No step is refused in a state of the invariant (spec/60_exceptions.md R230, spec/10_state.md R41): each phase finds the transient
registers it reads.
-/
namespace Sys2Proof.Machine

variable {s : State}

/-- IDLE waits or takes any word at all, illegal ones too (R231). -/
theorem seqIdle_answers (s : State) : ∃ t, seqIdle s = .next t := by
  unfold seqIdle
  split
  · exact ⟨_, rfl⟩
  · split <;> exact ⟨_, rfl⟩

theorem seqCntLo_answers (s : State) : ∃ t, seqCntLo s = .next t := by
  unfold seqCntLo
  split <;> exact ⟨_, rfl⟩

theorem seqCntHi_answers {lo : Word} {c : Ctx} (hlo : s.trans.cntLo = some lo) (hact : s.activeCtx = some c) :
    ∃ t, seqCntHi s = .next t := by
  simp only [seqCntHi, hlo, hact]
  split <;> exact ⟨_, rfl⟩

theorem seqAbsorb_answers {r : DWord} {c : Ctx} (hrem : s.trans.rem = some r) (hact : s.activeCtx = some c) :
    ∃ t, seqAbsorb s = .next t := by
  simp only [seqAbsorb, hrem, hact]
  split
  · exact ⟨_, rfl⟩
  · split <;> exact ⟨_, rfl⟩

/-- The load, a round or the final addition, as the compression's registers say (40_compression.md R112). -/
theorem seqCompress_answers {c : Ctx} {r : Caller} (hcomp : s.trans.Compressing) (hact : s.activeCtx = some c)
    (hret : s.trans.ret = some r) : ∃ t, seqCompress s = .next t := by
  obtain ⟨hwork, hsched, hround⟩ | ⟨hwork, w, k, hsched, hround, -⟩ | ⟨hwork, w, hsched, hround, -⟩ := hcomp
  · simp only [seqCompress, hact, hret, hwork, hsched, hround]
    exact ⟨_, rfl⟩
  · obtain ⟨v, hwork⟩ := Option.isSome_iff_exists.1 hwork
    simp only [seqCompress, hact, hret, hwork, hsched, hround]
    exact ⟨_, rfl⟩
  · obtain ⟨v, hwork⟩ := Option.isSome_iff_exists.1 hwork
    simp only [seqCompress, hact, hret, hwork, hsched, hround]
    exact ⟨_, rfl⟩

theorem seqPad_answers {p : PadStep} {c : Ctx} (hpad : s.trans.pad = some p) (hact : s.activeCtx = some c) :
    ∃ t, seqPad s = .next t := by
  cases p with
  | terminator =>
    simp only [seqPad, hpad, hact]
    split <;> exact ⟨_, rfl⟩
  | lengthField =>
    simp only [seqPad, hpad, hact]
    exact ⟨_, rfl⟩
  | done =>
    simp only [seqPad, hpad, hact]
    exact ⟨_, rfl⟩

theorem seqEncode_answers {c : Ctx} (hact : s.activeCtx = some c) : ∃ t, seqEncode s = .next t := by
  cases henc : s.trans.enc with
  | none =>
    simp only [seqEncode, henc, hact]
    exact ⟨_, rfl⟩
  | some e =>
    simp only [seqEncode, henc, hact]
    split
    · exact ⟨_, rfl⟩
    · split <;> exact ⟨_, rfl⟩

/-- The sequencer moves from every state of the invariant that is not in HALT. -/
theorem tick_answers (hs : s.Inv) (hr : s.rst = false) (hp : s.phase.halted = false) : ∃ t, tick s = .next t := by
  have hphase := hs.phaseAgrees
  cases hph : s.phase with
  | idle => rw [tick_idle ⟨hr, hph⟩]; exact seqIdle_answers s
  | cntLo => rw [tick_cntLo hr hph]; exact seqCntLo_answers s
  | cntHi =>
    simp only [State.PhaseAgrees, hph] at hphase
    obtain ⟨-, -, hlo, -, -, -, c, hact, -⟩ := hphase
    obtain ⟨lo, hlo⟩ := Option.isSome_iff_exists.1 hlo
    rw [tick_cntHi hr hph]
    exact seqCntHi_answers hlo hact
  | absorb =>
    simp only [State.PhaseAgrees, hph] at hphase
    obtain ⟨-, -, -, -, -, c, r, hact, hrem, -⟩ := hphase
    rw [tick_absorb hr hph]
    exact seqAbsorb_answers hrem hact
  | compress =>
    simp only [State.PhaseAgrees, hph] at hphase
    obtain ⟨-, hcomp, -, -, c, r, hact, -, -, hret⟩ := hphase
    rw [tick_compress hr hph]
    obtain ⟨hret, -⟩ | ⟨hret, -⟩ := hret <;> exact seqCompress_answers hcomp hact hret
  | pad =>
    simp only [State.PhaseAgrees, hph] at hphase
    obtain ⟨-, -, -, -, -, -, c, hact, hpos⟩ := hphase
    rw [tick_pad hr hph]
    obtain ⟨hpad, -⟩ | ⟨hpad, -⟩ | ⟨hpad, -⟩ := hpos <;> exact seqPad_answers hpad hact
  | encode =>
    simp only [State.PhaseAgrees, hph] at hphase
    obtain ⟨-, -, -, -, -, -, c, hact, -⟩ := hphase
    rw [tick_encode hr hph]
    exact seqEncode_answers hact
  | halt w => rw [hph] at hp; cases hp

/-- Out of HALT a step answers a next state: a whole command runs to its end, and the sequencer is never stuck (R230). -/
theorem step_answers (hs : s.Inv) (hr : s.rst = false) (hp : s.phase.halted = false) : ∃ t, step s = .next t := by
  obtain htick | ⟨i, ws, bs, hready, -, hexec⟩ := step_cases s
  · rw [htick]
    exact tick_answers hs hr hp
  · have hready' : State.Ready { s with cmdIn := ws, payIn := bs } := hready
    exact ⟨_, hexec.trans (exec_ready hready' i)⟩

/-- Settles O12: reset answers, HALT out of reset is the fault, and every other phase answers. -/
theorem onlyHaltFaults : Obligations.OnlyHaltFaults := by
  intro s hs
  cases hr : s.rst with
  | true => exact .inl ⟨_, step_rst hr⟩
  | false =>
    cases hp : s.phase with
    | halt w => exact .inr ⟨w, rfl, rfl, step_halt hr hp⟩
    | _ => exact .inl (step_answers hs hr (by rw [hp]; rfl))

end Sys2Proof.Machine
end

section
/-!
A system of independent blocks (spec/60_exceptions.md R243).
-/
namespace Sys2Proof.Machine

/-- All a step of block k can answer with a next system: block k's own next state in its place. -/
theorem systemStep_next {k : Nat} {sys sys' : System} (h : systemStep k sys = .next sys') :
    ∃ slot t, sys[k]? = some slot ∧ step slot.block = .next t ∧ sys' = sys.set k { slot with block := t } := by
  unfold systemStep at h
  split at h
  · cases h
  · next slot hslot =>
    split at h
    · next t ht => cases h; exact ⟨slot, t, hslot, ht, rfl⟩
    · cases h
    · cases h

/-- Settles O59: the step replaces entry k of the list and no other. -/
theorem blocksAreIndependent : Obligations.BlocksAreIndependent := by
  intro k sys sys' h
  obtain ⟨slot, t, hslot, hstep, rfl⟩ := systemStep_next h
  obtain ⟨hlt, -⟩ := List.getElem?_eq_some_iff.1 hslot
  exact ⟨fun j hj => List.getElem?_set_ne hj.symm, slot, t, hslot, hstep, List.getElem?_set_self hlt⟩

end Sys2Proof.Machine
end

section
/-!
Reset aborts everything (spec/70_reset_and_hazards.md R260, R261).
-/
namespace Sys2Proof.Machine

variable {s : State}

theorem State.cmdReady_of_rst (hr : s.rst = true) : s.cmdReady = false := by
  simp only [State.cmdReady, hr, Bool.not_true, Bool.false_and]

theorem State.inReady_of_rst (hr : s.rst = true) : s.inReady = false := by
  simp only [State.inReady, hr, Bool.not_true, Bool.false_and]

theorem State.Ready.cmdReady_eq (hs : s.Ready) : s.cmdReady = true := by
  simp only [State.cmdReady, hs.1, hs.2, Bool.not_false, Bool.and_self]

theorem State.Ready.inReady_eq (hs : s.Ready) : s.inReady = false :=
  State.inReady_of_ne_absorb (by simp [hs.2])

theorem State.applyReset_driveRst_ready (s : State) : (s.applyReset.driveRst false).Ready := ⟨rfl, rfl⟩

/-- Settles O3: the step is reset, which leaves IDLE, and IDLE out of reset takes a word and no byte. -/
theorem resetAbortsEverything : Obligations.ResetAbortsEverything := by
  intro s hr
  have hready := s.applyReset_driveRst_ready
  refine ⟨State.cmdReady_of_rst hr, State.inReady_of_rst hr, s.applyReset, step_rst hr, ?_, hready, hready.cmdReady_eq,
    hready.inReady_eq⟩
  rw [State.applyReset, hr]

end Sys2Proof.Machine
end

section
/-!
The command word held while a command runs (spec/70_reset_and_hazards.md R266).
-/
namespace Sys2Proof.Machine

variable {s t : State}

/-- The phases of a running command after its COUNT words: the command port is not ready (30_encoding.md R70). -/
theorem State.cmdReady_of_past_count (hp : s.phase = .absorb ∨ s.phase = .compress ∨ s.phase = .pad ∨ s.phase = .encode) :
    s.cmdReady = false := by
  obtain hp | hp | hp | hp := hp <;> simp only [State.cmdReady, hp, Bool.and_false]

theorem tick_keeps_cmdIn_past_count (hr : s.rst = false)
    (hp : s.phase = .absorb ∨ s.phase = .compress ∨ s.phase = .pad ∨ s.phase = .encode) (h : tick s = .next t) :
    t.cmdIn = s.cmdIn := by
  obtain hp | hp | hp | hp := hp
  · rw [tick_absorb hr hp] at h
    obtain ⟨r, -, hrem, -⟩ := seqAbsorb_next h
    exact (seqAbsorb_ports hrem h).1
  · exact (seqCompress_ports (tick_compress hr hp ▸ h)).1
  · exact (seqPad_ports (tick_pad hr hp ▸ h)).1
  · exact (seqEncode_ports (tick_encode hr hp ▸ h)).1

/-- Settles O19: no command is accepted while one runs, and past the COUNT words a step is one of the sequencer's that takes no word. -/
theorem busyBlockHoldsTheNextWord : Obligations.BusyBlockHoldsTheNextWord := by
  refine ⟨fun i s hr hrun => ?_, fun s t hr hp => ⟨State.cmdReady_of_past_count hp, fun h => ?_⟩⟩
  · rw [exec_eq, whenAccepted_running hr hrun]
  · have hne : s.phase ≠ .idle := by obtain hp | hp | hp | hp := hp <;> simp [hp]
    exact tick_keeps_cmdIn_past_count hr hp (step_eq_tick hne ▸ h)

end Sys2Proof.Machine
end

section
/-!
The number of compressions of each command (spec/70_reset_and_hazards.md R271).
-/
namespace Sys2Proof.Machine

@[simp] theorem wholeBlocks_length (bytes : List Byte) : (wholeBlocks bytes).length = bytes.length / 64 :=
  splitBlocks_length _ bytes

/-- The terminator, the zeros and the 8 length bytes count as bytes of the blocks (42_finalize.md R162, R163). -/
theorem wholeBlocks_paddedMessage_length (tail : List Byte) (len : DWord) :
    (wholeBlocks (paddedMessage tail len)).length = (tail.length + padsOf tail.length + 8) / 64 := by
  rw [wholeBlocks_length, paddedMessage_length, Nat.add_assoc]

/-- Settles O55: CLEAR compresses nothing, UPDATE the whole blocks of BUF and its payload, FINALIZE and EVAL those of the padded tail. -/
theorem compressionCounts : Obligations.CompressionCounts := by
  intro c p
  refine ⟨rfl, ?_, ?_, wholeBlocks_paddedMessage_length p _⟩
  · rw [compressions, blocksOf, wholeBlocks_length, List.length_append]
  · rw [compressions, blocksOf, wholeBlocks_paddedMessage_length, List.length_append]

end Sys2Proof.Machine
end

section
/-!
One host for each block (spec/70_reset_and_hazards.md R268).
-/
namespace Sys2Proof.Machine

/-- Whatever the action on the ports of block k. -/
theorem systemDrive_second_host {k host : Nat} {sys : System} {slot : Slot} (hslot : sys[k]? = some slot)
    (hne : slot.host ≠ host) (act : State → State) : systemDrive host k act sys = .refused .secondHost := by
  simp only [systemDrive, hslot, if_neg hne]

/-- Settles O60: a word, a byte and a drive of `rst` are each an action of the host on the block's ports. -/
theorem secondHostIsRefused : Obligations.SecondHostIsRefused :=
  fun _ _ _ _ _ _ _ hslot hne =>
    ⟨systemDrive_second_host hslot hne _, systemDrive_second_host hslot hne _, systemDrive_second_host hslot hne _⟩

end Sys2Proof.Machine
end

section
/-!
The invariant right after reset (spec/10_state.md R25, R40), and the steps that take no whole transaction (spec/20_memory.md R51,
spec/30_encoding.md R71).
-/
namespace Sys2Proof.Machine

/-- Settles O2: resetting the reset state gives it back. -/
theorem resetMeetsTheInvariant : Obligations.ResetMeetsTheInvariant := State.reset.applyReset_inv

/-- In IDLE with no word offered the sequencer waits. -/
theorem tick_wait {s : State} (hs : s.Ready) (hc : s.cmdIn = []) : tick s = .next s := by
  rw [tick_idle hs]
  simp only [seqIdle, hc]

/-- A step runs a command only in a ready state that is offered a whole transaction. -/
theorem step_eq_tick_of_no_transaction {s : State}
    (h : ¬ s.Ready ∨ ∀ i ws bs, decode s.cmdIn s.payIn ≠ .complete i ws bs) : step s = tick s := by
  obtain htick | ⟨i, ws, bs, hready, hdecode, -⟩ := step_cases s
  · exact htick
  · obtain hnot | hnone := h
    · exact absurd hready hnot
    · exact absurd hdecode (hnone i ws bs)

/-- Settles O11: with no word offered no transaction is whole, and the sequencer's step is a wait. -/
theorem stepOtherwiseSequences : Obligations.StepOtherwiseSequences := by
  refine ⟨fun _ => step_eq_tick_of_no_transaction, fun s hs hc => ?_⟩
  have hnone : ∀ i ws bs, decode s.cmdIn s.payIn ≠ .complete i ws bs := by
    intro i ws bs
    rw [hc]
    exact Decoded.noConfusion
  exact (step_eq_tick_of_no_transaction (.inr hnone)).trans (tick_wait hs hc)

end Sys2Proof.Machine
end

section
/-!
UPDATE in closed form (spec/41_update.md R146): however much BUF holds, UPDATE absorbs the blocks of BUF followed by the payload. Blocks
absorbed in two portions are those absorbed at once, so UPDATEs in a row are one UPDATE (R147).
-/
namespace Sys2Proof.Machine

/-- Absorbing some bytes, and then what BUF keeps of them followed by more, is absorbing all of them. -/
theorem Ctx.absorbBlocks_append (c : Ctx) (p q : List Byte) :
    c.absorbBlocks (p ++ q) = (c.absorbBlocks p).absorbBlocks ((c.absorbBlocks p).buf ++ q) := by
  have hle : 64 * (p.length / 64) ≤ p.length := Nat.mul_div_le _ _
  have hdrop : p.drop (64 * (p.length / 64)) ++ q = (p ++ q).drop (64 * (p.length / 64)) :=
    (List.drop_append_of_le_length hle).symm
  have hblocks : (p ++ q).length / 64 = p.length / 64 + ((p ++ q).drop (64 * (p.length / 64))).length / 64 := by
    rw [List.length_drop, List.length_append]
    omega
  simp only [Ctx.absorbBlocks, hdrop]
  rw [hblocks, compressBlocks_add, compressBlocks_append _ _ _ _ hle, List.drop_drop, Nat.mul_add]

theorem Ctx.absorbBlocks_of_block (c : Ctx) {p : List Byte} (h : p.length = 64) :
    c.absorbBlocks p = { c with h := compress c.h p, buf := [] } := by
  have htake : p.take 64 = p := List.take_of_length_le h.le
  have hdrop : p.drop 64 = [] := List.drop_of_length_le h.le
  simp [Ctx.absorbBlocks, h, htake, hdrop]

/-- R146, by what the buffer holds: bytes that the payload does not fill up to a block, nothing, or bytes that it does. -/
theorem Ctx.update_eq_absorbBlocks {c : Ctx} (h : c.buf.length < 64) (p : List Byte) :
    c.update p = Ctx.absorbBlocks { c with len := c.len + payloadCount p } (c.buf ++ p) := by
  obtain hshort | hfills := Nat.lt_or_ge (c.buf.length + p.length) 64
  · rw [Ctx.update_of_short hshort, Ctx.absorbBlocks_of_short _ (by rwa [List.length_append])]
  · by_cases hempty : c.buf = []
    · rw [Ctx.update_of_empty hempty, hempty, List.nil_append]
    · obtain ⟨filler, rest, rfl, hfull⟩ : ∃ filler rest, p = filler ++ rest ∧ c.buf.length + filler.length = 64 :=
        ⟨p.take (64 - c.buf.length), p.drop (64 - c.buf.length), (List.take_append_drop _ p).symm, by
          rw [List.length_take]; omega⟩
      have hblock : (c.buf ++ filler).length = 64 := List.length_append.trans hfull
      rw [Ctx.update_of_fills hempty hfull, ← List.append_assoc, Ctx.absorbBlocks_append,
        Ctx.absorbBlocks_of_block _ hblock, List.nil_append]

/-- Settles O24: `Ctx.absorbBlocks` is the closed form. -/
theorem updateClosedForm : Obligations.UpdateClosedForm := by
  intro p s hs hlt
  have hctx : (effectOf (.update p) s).ctx = s.ctx.update p := updateEffect_ctx p s
  refine ⟨_, exec_ready hs (.update p), ?_⟩
  rw [hctx]
  refine ⟨?_, ?_, ?_, s.ctx.update_len_toNat p, ?_⟩
  · rw [Ctx.update_eq_absorbBlocks hlt]
    exact Ctx.absorbBlocks_h _ _
  · rw [Ctx.update_eq_absorbBlocks hlt]
    exact Ctx.absorbBlocks_buf _ _
  · rw [Ctx.update_buf_length hlt, List.length_append]
  · rw [wholeBlocks_length, List.length_append]

theorem payloadCount_append (p q : List Byte) : payloadCount (p ++ q) = payloadCount p + payloadCount q := by
  rw [payloadCount, List.length_append, BitVec.ofNat_add, payloadCount, payloadCount]

theorem Ctx.update_buf_length_lt {c : Ctx} (h : c.buf.length < 64) (p : List Byte) : (c.update p).buf.length < 64 := by
  rw [Ctx.update_buf_length h]
  exact Nat.mod_lt _ (by decide)

theorem Ctx.update_nil {c : Ctx} (h : c.buf.length < 64) : c.update [] = c := by
  have hlen : c.len + payloadCount [] = c.len := BitVec.add_zero c.len
  have hshort : c.buf.length + ([] : List Byte).length < 64 := h
  rw [Ctx.update_of_short hshort, hlen, List.append_nil]

theorem Ctx.update_update {c : Ctx} (h : c.buf.length < 64) (p q : List Byte) :
    (c.update p).update q = c.update (p ++ q) := by
  rw [Ctx.update_eq_absorbBlocks (Ctx.update_buf_length_lt h p), Ctx.update_len, Ctx.update_eq_absorbBlocks h,
    Ctx.update_eq_absorbBlocks h, payloadCount_append, ← BitVec.add_assoc, ← List.append_assoc, Ctx.absorbBlocks_append _ (c.buf ++ p)]
  rfl

/-- UPDATEs in a row leave the context that one UPDATE of all their payloads leaves. -/
theorem effectOfAll_updates_ctx {s : State} (h : s.ctx.buf.length < 64) (pieces : List (List Byte)) :
    (effectOfAll (pieces.map Instr.update) s).ctx = s.ctx.update pieces.flatten := by
  induction pieces generalizing s with
  | nil => exact (Ctx.update_nil h).symm
  | cons p pieces ih =>
    have hctx : (effectOf (.update p) s).ctx = s.ctx.update p := updateEffect_ctx p s
    have hlt : (effectOf (.update p) s).ctx.buf.length < 64 := by
      rw [hctx]
      exact Ctx.update_buf_length_lt h p
    rw [List.map_cons, effectOfAll_cons, ih hlt, hctx, Ctx.update_update h, List.flatten_cons]

/-- Settles O27, by induction over the pieces. -/
theorem streamingEquivalence : Obligations.StreamingEquivalence := by
  intro pieces s hs hlt
  have hctx : (effectOf (.update pieces.flatten) s).ctx = s.ctx.update pieces.flatten := updateEffect_ctx _ s
  exact ⟨_, _, execAll_ready hs _, exec_ready hs _, (effectOfAll_updates_ctx hlt pieces).trans hctx.symm⟩

end Sys2Proof.Machine
end

section
/-!
FINALIZE after UPDATE (spec/42_finalize.md R165, R170, R174, R175): the padding depends on the tail's length modulo 64 only, so FINALIZE
ends as if its payload had been absorbed by an UPDATE and what BUF then holds were padded.
-/
namespace Sys2Proof.Machine

theorem paddedMessage_length_mod_64 (tail : List Byte) (len : DWord) : (paddedMessage tail len).length % 64 = 0 := by
  obtain ⟨-, -, hmod⟩ := padsOf_spec tail.length
  rw [paddedMessage_length]
  omega

/-- Settles O32: pads leaves room in a block for the 8 bytes of the length field. -/
theorem paddedMessageIsWholeBlocks : Obligations.PaddedMessageIsWholeBlocks :=
  fun tail len => ⟨(paddedMessage_length tail len).trans (Nat.add_assoc _ _ _).symm, paddedMessage_length_mod_64 tail len⟩

theorem padding_congr {m n : Nat} (h : m % 64 = n % 64) (len : DWord) : padding m len = padding n len := by
  simp only [padding, padsOf, h]

theorem Ctx.finalHash_eq_update {c : Ctx} (h : c.buf.length < 64) (p : List Byte) :
    c.finalHash p = ((c.update p).absorbBlocks (paddedMessage (c.update p).buf (c.update p).len)).h := by
  have hmod : (c.buf ++ p).length % 64 = (c.update p).buf.length % 64 := by
    rw [Ctx.update_buf_length h, Nat.mod_mod, List.length_append]
  calc c.finalHash p
      = (Ctx.absorbBlocks { c with len := c.len + payloadCount p }
          (paddedMessage (c.buf ++ p) (c.len + payloadCount p))).h := rfl
    _ = ((c.update p).absorbBlocks (paddedMessage (c.update p).buf (c.update p).len)).h := by
        rw [paddedMessage, padding_congr hmod, Ctx.absorbBlocks_append, ← Ctx.update_eq_absorbBlocks h, ← Ctx.update_len,
          paddedMessage]

/-- What an UPDATE absorbs comes before FINALIZE's own payload. -/
theorem Ctx.finalHash_update {c : Ctx} (h : c.buf.length < 64) (p q : List Byte) :
    (c.update p).finalHash q = c.finalHash (p ++ q) := by
  rw [Ctx.finalHash_eq_update (Ctx.update_buf_length_lt h p), Ctx.update_update h, ← Ctx.finalHash_eq_update h]

/-- Settles O34: both end with the same hash, and FINALIZE in the initial context. -/
theorem finalChunkConvention : Obligations.FinalChunkConvention := by
  intro p s hs hlt
  have hhash : (updateEffect p s).ctx.finalHash [] = s.ctx.finalHash p := by
    rw [updateEffect_ctx, Ctx.finalHash_update hlt, List.append_nil]
  refine ⟨_, _, _, exec_ready hs (.finalize p), exec_ready hs (.update p),
    exec_ready (effectOf_ready hs (.update p)) (.finalize []), ?_⟩
  simp only [effectOf, finalizeEffect_digest, finalizeEffect_hex, finalizeEffect_ctx, hhash, and_self]

/-- Settles O35: UPDATE p keeps LEN mod 64 at BUFLEN, and leaves in BUF the bytes that fill no whole block. -/
theorem remIsLenModulo64 : Obligations.RemIsLenModulo64 := by
  intro c p hset
  obtain ⟨-, hlen⟩ := hset.update p
  rw [← Ctx.update_len, hlen, Ctx.update_buf_length hset.1, List.length_append]

/-- Settles O36: the UPDATEs leave the context of one UPDATE of all the pieces, whose bytes come before those of p. -/
theorem finalizeOfAStreamIsSha1 : Obligations.FinalizeOfAStreamIsSha1 := by
  intro pieces p s hs hinit
  have hlt : s.ctx.buf.length < 64 := by
    rw [hinit]
    exact Ctx.initial_settled.1
  have hhash : (effectOfAll (pieces.map Instr.update) s).ctx.finalHash p = Ctx.initial.finalHash (pieces.flatten ++ p) := by
    rw [effectOfAll_updates_ctx hlt, Ctx.finalHash_update hlt, hinit]
  refine ⟨_, execAll_ready hs _, ?_⟩
  simp only [effectOfAll_append, effectOfAll_cons, effectOfAll_nil, effectOf, finalizeEffect_digest, finalizeEffect_hex,
    hhash, sha1Raw, sha1Hex, and_self]

/-- FINALIZE's outputs depend on the context alone (R167). -/
theorem finalizeEffect_outputs_congr {s t : State} (h : s.ctx = t.ctx) (m : List Byte) :
    (finalizeEffect m s).digest = (finalizeEffect m t).digest ∧ (finalizeEffect m s).hex = (finalizeEffect m t).hex := by
  simp only [finalizeEffect_digest, finalizeEffect_hex, h, and_self]

/-- Settles O40: CLEAR and FINALIZE leave the context of reset. -/
theorem idempotentReset : Obligations.IdempotentReset := by
  intro q m s hs
  have hready : State.reset.Ready := ⟨rfl, rfl⟩
  obtain ⟨hdigest, hhex⟩ := finalizeEffect_outputs_congr (s := clearEffect s) (t := State.reset) (clearEffect_ctx s) m
  obtain ⟨hdigest', hhex'⟩ := finalizeEffect_outputs_congr (s := finalizeEffect q s) (t := State.reset)
    (finalizeEffect_ctx q s) m
  exact ⟨_, _, _, execAll_ready hs _, execAll_ready hs _, exec_ready hready (.finalize m), hdigest, hdigest', hhex, hhex'⟩

end Sys2Proof.Machine
end

section
/-!
The hex string (spec/43_digest_encoding.md R193, R197): its characters word by word, and the bytes read back from it.
-/
namespace Sys2Proof.Machine

/-- Settles O43: word j takes characters 8j to 8j + 7, one for each nibble from the top. -/
theorem hexWordForm : Obligations.HexWordForm :=
  fun h => ⟨serializeHex_length h, fun _ hj _ hm => serializeHex_getElem? h (Nat.le_of_lt_succ hj) hm⟩

/-- The sixteen characters of R191 stand for the sixteen nibbles. -/
@[simp] theorem hexValue_hexChar (v : BitVec 4) : hexValue (hexChar v) = some v := by
  revert v
  decide

theorem nibbles_append (b : Byte) : b.extractLsb' 4 4 ++ b.extractLsb' 0 4 = b :=
  BitVec.extractLsb'_append_extractLsb' (w := 4) (len := 4)

theorem bytesOfHex_hexOfBytes (bytes : List Byte) : bytesOfHex (hexOfBytes bytes) = some bytes := by
  induction bytes with
  | nil => rfl
  | cons b bytes ih =>
    simp only [hexOfBytes, hexPair, List.cons_append, List.nil_append, bytesOfHex, hexValue_hexChar, ih]
    exact congrArg (fun c => some (c :: bytes)) (nibbles_append b)

/-- With DVALID = 1 the outputs hold a digest and its hex spelling (R28, R29). -/
theorem State.OutputsAgree.of_dvalid {s : State} (h : s.OutputsAgree) (hv : s.status.dvalid = true) :
    ∃ raw, s.digest = some raw ∧ s.hex = some (hexOfBytes raw) := by
  unfold State.OutputsAgree at h
  split at h
  · next raw chars _ hd hx => exact ⟨raw, hd, by rw [hx, h.2]⟩
  · next hinvalid _ _ => cases hv.symm.trans hinvalid
  · exact h.elim

/-- Settles O45: HEX is the spelling of DIGEST, which reads back. -/
theorem hexDecodesToDigest : Obligations.HexDecodesToDigest := by
  intro s hs hv
  obtain ⟨raw, hdigest, hhex⟩ := hs.outputsAgree.of_dvalid hv
  exact ⟨raw, _, hdigest, hhex, bytesOfHex_hexOfBytes raw⟩

end Sys2Proof.Machine
end

section
/-!
The schedule in a 16-entry circular store (spec/40_compression.md R111): entry k mod 16 holds W[k] for the last 16 words, which are all
that the recurrence of R102 reads.
-/
namespace Sys2Proof.Machine

/-- The circular store at round t, with W[t] written over W[t - 16] when t ≥ 16. -/
def windowStore (t : Nat) (store : List Word) : List Word :=
  if t < 16 then store
  else store.set (t % 16)
    (rotl (store.getD ((t - 3) % 16) 0 ^^^ store.getD ((t - 8) % 16) 0 ^^^ store.getD ((t - 14) % 16) 0
      ^^^ store.getD ((t - 16) % 16) 0) 1)

theorem windowRound_eq (t : Nat) (sv : List Word × Work) :
    windowRound t sv = (windowStore t sv.1, roundStep t ((windowStore t sv.1).getD (t % 16) 0) sv.2) := rfl

/-- Before round n the store holds the block's words or the 16 words before W[n], whichever are later. -/
def HoldsWindow (w : List Word) (n : Nat) (store : List Word) : Prop :=
  store.length = 16 ∧ ∀ k, n ≤ k + 16 → k < max 16 n → store.getD (k % 16) 0 = w.getD k 0

section
variable {blk : List Byte}

theorem holdsWindow_blockWords (h : blk.length = 64) : HoldsWindow (schedule blk) 0 (blockWords blk) := by
  refine ⟨blockWords_length_of_block h, fun k _ hk => ?_⟩
  have hk : k < 16 := hk
  rw [Nat.mod_eq_of_lt hk, schedule_getD_eq_extendSchedule h (Nat.zero_le 64) hk, extendSchedule_zero]

/-- Round n writes W[n], computed from four words of the store, over the one word that no later round reads. -/
theorem HoldsWindow.next {n : Nat} {store : List Word} (h : blk.length = 64) (hn : n < 80)
    (hw : HoldsWindow (schedule blk) n store) : HoldsWindow (schedule blk) (n + 1) (windowStore n store) := by
  obtain ⟨hlen, hold⟩ := hw
  rw [windowStore]
  split
  · exact ⟨hlen, fun k hk hlt => hold k (by omega) (by omega)⟩
  · next hge =>
    have hlt : n % 16 < store.length := by
      rw [hlen]
      exact Nat.mod_lt n (by decide)
    rw [hold (n - 3) (by omega) (by omega), hold (n - 8) (by omega) (by omega), hold (n - 14) (by omega) (by omega),
      hold (n - 16) (by omega) (by omega), ← scheduleWord, ← schedule_getD_of_ge h (by omega) hn]
    refine ⟨List.length_set.trans hlen, fun k hk hmax => ?_⟩
    obtain rfl | hne := eq_or_ne k n
    · simp [hlt]
    · have hother : n % 16 ≠ k % 16 := by omega
      rw [← hold k (by omega) (by omega)]
      simp [hother]

/-- Round by round the store holds the window and the working variables are those of the whole schedule. -/
theorem windowRounds_spec (h : blk.length = 64) (v : Work) {n : Nat} (hn : n ≤ 80) :
    HoldsWindow (schedule blk) n (windowRounds (blockWords blk, v) n).1 ∧
      (windowRounds (blockWords blk, v) n).2 = runRounds (schedule blk) v n := by
  induction n with
  | zero => exact ⟨holdsWindow_blockWords h, rfl⟩
  | succ n ih =>
    obtain ⟨hwindow, hwork⟩ := ih (by omega)
    obtain ⟨hlength, hstore⟩ := hwindow.next h (by omega)
    rw [windowRounds, windowRound_eq]
    refine ⟨⟨hlength, hstore⟩, ?_⟩
    dsimp only
    rw [hwork, hstore n (by omega) (by omega), runRounds_succ]

end

/-- Settles O54: after the 80 rounds on the store the working variables are those of `compress`. -/
theorem sixteenWordWindowSuffices : Obligations.SixteenWordWindowSuffices := by
  intro h blk hlen
  obtain ⟨-, hwork⟩ := windowRounds_spec hlen (loadWork h) le_rfl
  rw [compressWindow, hwork, compress]

end Sys2Proof.Machine
end

section
/-!
Runs of the reference sequencer (spec/10_state.md R33), and the state of a running command between its steps.
-/
namespace Sys2Proof.Machine

/-- Some number of steps of the sequencer leads from s to t. -/
def State.Reaches (s t : State) : Prop := ∃ n, tickN n s = .next t

theorem State.Reaches.refl (s : State) : s.Reaches s := ⟨0, rfl⟩

theorem State.Reaches.trans {s t u : State} (h : s.Reaches t) (h' : t.Reaches u) : s.Reaches u := by
  obtain ⟨m, hm⟩ := h
  obtain ⟨n, hn⟩ := h'
  exact ⟨m + n, (tickN_add hm).trans hn⟩

theorem State.Reaches.of_tick {s t : State} (h : tick s = .next t) : s.Reaches t := ⟨1, tickN_succ_next 0 h⟩

/-- A step first, and then a run. -/
theorem State.Reaches.head {s t u : State} (h : tick s = .next t) (h' : t.Reaches u) : s.Reaches u :=
  (State.Reaches.of_tick h).trans h'

/-- The block s while it runs the command op on the context c, with no compression in progress (10_state.md R33, R35, R36). -/
def State.working (s : State) (op : Op) (c : Ctx) (phase : Phase) (rem : DWord) (pad : Option PadStep)
    (enc : Option Encoder) : State :=
  State.setActive c
    { s with
      phase := phase
      trans := { Transient.empty with op := some op, rem := some rem, pad := pad, enc := enc } }

section
variable (s : State) (op : Op) (c : Ctx) (phase : Phase) (rem : DWord) (pad : Option PadStep) (enc : Option Encoder)

@[simp] theorem State.working_rst : (s.working op c phase rem pad enc).rst = s.rst := State.setActive_rst _ _
@[simp] theorem State.working_phase : (s.working op c phase rem pad enc).phase = phase := State.setActive_phase _ _
@[simp] theorem State.working_payIn : (s.working op c phase rem pad enc).payIn = s.payIn := State.setActive_payIn _ _
@[simp] theorem State.working_rem : (s.working op c phase rem pad enc).trans.rem = some rem := State.setActive_rem _ _
@[simp] theorem State.working_pad : (s.working op c phase rem pad enc).trans.pad = pad := State.setActive_pad _ _
@[simp] theorem State.working_enc : (s.working op c phase rem pad enc).trans.enc = enc := State.setActive_enc _ _
@[simp] theorem State.working_activeCtx : (s.working op c phase rem pad enc).activeCtx = some c :=
  State.activeCtx_setActive _ _ (by simp)

end

/-- The block while COMPRESS runs for the caller r, before its first step (40_compression.md R112). -/
def State.compressing (s : State) (op : Op) (c : Ctx) (rem : DWord) (pad : Option PadStep) (r : Caller) : State :=
  State.setActive c
    { s with
      phase := .compress
      trans := { Transient.empty with op := some op, rem := some rem, pad := pad, ret := some r } }

/-- The 82 steps of COMPRESS hand the block's hash back to the caller, with BUF empty. -/
theorem State.compressing_reaches {s : State} (hr : s.rst = false) (op : Op) {c : Ctx} (hfull : c.buf.length = 64)
    (rem : DWord) (pad : Option PadStep) (r : Caller) :
    (s.compressing op c rem pad r).Reaches
      (s.working op { c with h := compress c.h c.buf, buf := [] } r.phase rem pad none) := by
  refine ⟨82, (compressPhaseComputesCompress (s.compressing op c rem pad r) c r ?_ ?_ ?_ hfull ?_ ?_ ?_ ?_).trans ?_⟩
  · simpa [State.compressing] using hr
  · simp [State.compressing]
  · exact State.activeCtx_setActive _ _ (by simp)
  · simp [State.compressing]
  · simp [State.compressing, Transient.empty]
  · simp [State.compressing, Transient.empty]
  · simp [State.compressing, Transient.empty]
  · cases op <;> rfl

end Sys2Proof.Machine
end

section
/-!
The payload (spec/30_encoding.md R72, R75, spec/41_update.md R145): the sequencer takes the command word and COUNT, and absorbs the payload
byte by byte into the context that UPDATE leaves.
-/
namespace Sys2Proof.Machine

variable {s : State} {op : Op}

/-- The context a command begins on: a fresh one for EVAL, else the block's own (10_state.md R36). -/
def State.startCtx (s : State) (op : Op) : Ctx := if op = .eval then Ctx.initial else s.ctx

/-- The block with the command op accepted (10_state.md R28, R31, R32). -/
def State.accepted (s : State) (op : Op) : State :=
  { s with
    status := statusAccept op s.status
    digest := if producesDigest op then none else s.digest
    hex := if producesDigest op then none else s.hex }

/-- The block between the two COUNT words (30_encoding.md R75). -/
def State.countLoTaken (s : State) (op : Op) (lo : Word) : State :=
  { s.beginCommand op with phase := .cntHi, trans := { (s.beginCommand op).trans with cntLo := some lo } }

theorem tick_countLo {lo : Word} {ws : List Word} (hr : s.rst = false) :
    tick (State.beginCommand op { s with cmdIn := lo :: ws }) = .next (State.countLoTaken { s with cmdIn := ws } op lo) :=
  (tick_cntLo (s := State.beginCommand op { s with cmdIn := lo :: ws }) hr rfl).trans rfl

/-- LEN takes COUNT in, and REM is COUNT (41_update.md R145). -/
theorem tick_countHi {lo hi : Word} {ws : List Word} (hr : s.rst = false) (hop : op ≠ .clear) :
    tick (State.countLoTaken { s with cmdIn := hi :: ws } op lo) =
      .next ((State.accepted { s with cmdIn := ws } op).working op
        { s.startCtx op with len := (s.startCtx op).len + countOf lo hi } .absorb (countOf lo hi) none none) := by
  rw [tick_cntHi (s := State.countLoTaken { s with cmdIn := hi :: ws } op lo) hr rfl]
  cases op with
  | clear => exact absurd rfl hop
  | update | finalize | eval => rfl

/-- The command word, COUNT_LO and COUNT_HI. -/
theorem reaches_absorb {lo hi : Word} {ws : List Word} (hs : s.Ready) (hop : op ≠ .clear)
    (hc : s.cmdIn = op.word :: lo :: hi :: ws) :
    s.Reaches ((State.accepted { s with cmdIn := ws } op).working op
      { s.startCtx op with len := (s.startCtx op).len + countOf lo hi } .absorb (countOf lo hi) none none) :=
  .head (tick_payload_word hs hc (decodeOp_word op) hop) (.head (tick_countLo hs.1) (.of_tick (tick_countHi hs.1 hop)))

section
variable {c : Ctx} {r : DWord} {b : Byte} {bs : List Byte}

theorem seqTakeByte_working_of_full (hfull : (c.buf ++ [b]).length = 64) :
    seqTakeByte b r c { s.working op c .absorb r none none with payIn := bs } =
      State.compressing { s with payIn := bs } op { c with buf := c.buf ++ [b] } (r - 1) none .absorb := by
  rw [seqTakeByte_of_full r hfull]
  cases op <;> rfl

theorem seqTakeByte_working_of_short (hshort : (c.buf ++ [b]).length < 64) :
    seqTakeByte b r c { s.working op c .absorb r none none with payIn := bs } =
      State.working { s with payIn := bs } op { c with buf := c.buf ++ [b] } .absorb (r - 1) none none := by
  rw [seqTakeByte_of_not_full r hshort.ne]
  cases op <;> rfl

/-- A byte taken, and its compression when it fills BUF. -/
theorem reaches_takeByte (hr : s.rst = false) (hlt : c.buf.length < 64) (h0 : r ≠ 0) (hb : s.payIn = b :: bs) :
    (s.working op c .absorb r none none).Reaches
      (State.working { s with payIn := bs } op (c.absorbBlocks (c.buf ++ [b])) .absorb (r - 1) none none) := by
  have htick : tick (s.working op c .absorb r none none) =
      .next (seqTakeByte b r c { s.working op c .absorb r none none with payIn := bs }) := by
    rw [tick_absorb (by simpa using hr) (by simp)]
    exact seqAbsorb_byte (by simp) (by simp) h0 (by simpa using hb)
  have hle : (c.buf ++ [b]).length ≤ 64 := by simpa using hlt
  obtain hshort | hfull := Nat.lt_or_eq_of_le hle
  · rw [seqTakeByte_working_of_short hshort] at htick
    rw [Ctx.absorbBlocks_of_short c hshort]
    exact .of_tick htick
  · rw [seqTakeByte_working_of_full hfull] at htick
    rw [Ctx.absorbBlocks_of_block c hfull]
    exact .head htick (State.compressing_reaches (s := { s with payIn := bs }) hr op hfull (r - 1) none .absorb)

end

/-- The whole payload. -/
theorem reaches_absorbBlocks {c : Ctx} {r : DWord} {p bs : List Byte} (hr : s.rst = false) (hlt : c.buf.length < 64)
    (hrem : r.toNat = p.length) (hp : s.payIn = p ++ bs) :
    (s.working op c .absorb r none none).Reaches
      (State.working { s with payIn := bs } op (c.absorbBlocks (c.buf ++ p)) .absorb 0 none none) := by
  induction p generalizing s c r with
  | nil =>
    have hzero : r = 0 := BitVec.eq_of_toNat_eq hrem
    have hports : { s with payIn := bs } = s := by rw [← List.nil_append bs, ← hp]
    rw [hzero, hports, List.append_nil, Ctx.absorbBlocks_of_short c hlt]
    exact .refl _
  | cons b p ih =>
    rw [List.length_cons] at hrem
    have h0 : r ≠ 0 := by
      rintro rfl
      cases hrem
    have hrem' : (r - 1).toNat = p.length := by bv_omega
    have hlt' : (c.absorbBlocks (c.buf ++ [b])).buf.length < 64 := by
      rw [Ctx.absorbBlocks_buf_length]
      exact Nat.mod_lt _ (by decide)
    have hall : c.absorbBlocks (c.buf ++ b :: p) = (c.absorbBlocks (c.buf ++ [b])).absorbBlocks
        ((c.absorbBlocks (c.buf ++ [b])).buf ++ p) := by
      rw [← Ctx.absorbBlocks_append, List.append_assoc, List.singleton_append]
    rw [hall]
    have hrest := ih (s := { s with payIn := p ++ bs }) hr hlt' hrem' rfl
    exact (reaches_takeByte hr hlt h0 hp).trans hrest

end Sys2Proof.Machine
end

section
/-!
PAD (spec/42_finalize.md R172): the terminator, zeros and length field are written into BUF block by block, and the blocks compressed are
those of the padded message.
-/
namespace Sys2Proof.Machine

theorem zeroFill_eq (buf : List Byte) (n : Nat) : zeroFill buf n = buf ++ List.replicate (n - buf.length) 0x00 :=
  memWrite_length_self _ _

/-- The terminator leaves room for the length field: one block (R162). -/
theorem paddedMessage_of_lt {buf : List Byte} (h : buf.length < 56) (len : DWord) :
    paddedMessage buf len = zeroFill (buf ++ [0x80]) 56 ++ bytesBe64 (bitLength len) := by
  have hpads : padsOf buf.length - 1 = 56 - (buf ++ [0x80]).length := by
    rw [padsOf_of_lt (by omega), List.length_append, List.length_singleton]
    omega
  rw [paddedMessage_eq, zeroFill_eq, hpads]

/-- It does not: the zeros go on into a block of their own, which ends with the length field. -/
theorem paddedMessage_of_ge {buf : List Byte} (h : 56 ≤ buf.length) (hlt : buf.length < 64) (len : DWord) :
    paddedMessage buf len = zeroFill (buf ++ [0x80]) 64 ++ (zeroFill [] 56 ++ bytesBe64 (bitLength len)) := by
  obtain ⟨hpos, hle, hmod⟩ := padsOf_spec buf.length
  have hpads : padsOf buf.length - 1 = 64 - (buf ++ [0x80]).length + 56 := by
    rw [List.length_append, List.length_singleton]
    omega
  rw [paddedMessage_eq, zeroFill_eq, zeroFill_eq, hpads, ← List.replicate_append_replicate]
  simp only [List.append_assoc, List.nil_append, List.length_nil, Nat.sub_zero]

section
variable {s : State} {c : Ctx}

theorem seqPad_terminator_short (hpad : s.trans.pad = some .terminator) (hact : s.activeCtx = some c)
    (h : c.buf.length < 56) :
    seqPad s = .next (State.setActive { c with buf := c.buf ++ [0x80] }
      { s with trans := { s.trans with pad := some .lengthField } }) := by
  have hroom : ¬ 56 < (c.buf ++ [0x80]).length := by
    rw [List.length_append, List.length_singleton]
    omega
  simp only [seqPad, hpad, hact, memWrite_length_self, if_neg hroom]

theorem seqPad_terminator_long (hpad : s.trans.pad = some .terminator) (hact : s.activeCtx = some c)
    (h : 56 ≤ c.buf.length) :
    seqPad s = .next (seqPadCompress c (zeroFill (c.buf ++ [0x80]) 64) .lengthField s) := by
  have hroom : 56 < (c.buf ++ [0x80]).length := by
    rw [List.length_append, List.length_singleton]
    omega
  simp only [seqPad, hpad, hact, memWrite_length_self, if_pos hroom]

theorem seqPad_lengthField (hpad : s.trans.pad = some .lengthField) (hact : s.activeCtx = some c)
    (h : c.buf.length ≤ 56) :
    seqPad s = .next (seqPadCompress c (zeroFill c.buf 56 ++ bytesBe64 (bitLength c.len)) .done s) := by
  have hwrite := memWrite_length_self (zeroFill c.buf 56) (bytesBe64 (bitLength c.len))
  rw [zeroFill_length h] at hwrite
  simp only [seqPad, hpad, hact, hwrite]

theorem seqPad_done (hpad : s.trans.pad = some .done) (hact : s.activeCtx = some c) :
    seqPad s = .next { s with phase := .encode, trans := { s.trans with pad := none } } := by
  simp only [seqPad, hpad, hact]

end

section
variable {s : State} {op : Op} {c : Ctx} {r : DWord}

/-- A block that PAD hands over is compressed, and PAD goes on. -/
theorem reaches_padCompress {buf : List Byte} {next : PadStep} {pad : Option PadStep} (hr : s.rst = false)
    (hfull : buf.length = 64)
    (hpad : seqPad (s.working op c .pad r pad none) = .next (seqPadCompress c buf next (s.working op c .pad r pad none))) :
    (s.working op c .pad r pad none).Reaches (s.working op (c.absorbBlocks buf) .pad r (some next) none) := by
  have hcompress : seqPadCompress c buf next (s.working op c .pad r pad none) =
      s.compressing op { c with buf := buf } r (some next) .pad := by cases op <;> rfl
  rw [hcompress] at hpad
  rw [Ctx.absorbBlocks_of_block c hfull]
  exact .head ((tick_pad (by simpa using hr) (by simp)).trans hpad)
    (State.compressing_reaches hr op (c := { c with buf := buf }) hfull r (some next) .pad)

/-- The last block, and the end of PAD. -/
theorem reaches_lengthField (hr : s.rst = false) (h : c.buf.length ≤ 56) :
    (s.working op c .pad r (some .lengthField) none).Reaches
      (s.working op (c.absorbBlocks (zeroFill c.buf 56 ++ bytesBe64 (bitLength c.len))) .encode r none none) := by
  have hfull : (zeroFill c.buf 56 ++ bytesBe64 (bitLength c.len)).length = 64 := by
    rw [List.length_append, zeroFill_length h, bytesBe64_length]
  refine (reaches_padCompress hr hfull (seqPad_lengthField (by simp) (by simp) h)).trans (.of_tick ?_)
  rw [tick_pad (by simpa using hr) (by simp), seqPad_done (by simp) (State.working_activeCtx _ _ _ _ _ _ _)]
  cases op <;> rfl

/-- All of PAD, by whether the terminator leaves room for the length field. -/
theorem reaches_encode (hr : s.rst = false) (hlt : c.buf.length < 64) :
    (s.working op c .pad r (some .terminator) none).Reaches
      (s.working op (c.absorbBlocks (paddedMessage c.buf c.len)) .encode r none none) := by
  obtain hshort | hlong := Nat.lt_or_ge c.buf.length 56
  · rw [paddedMessage_of_lt hshort]
    have htick : tick (s.working op c .pad r (some .terminator) none) =
        .next (s.working op { c with buf := c.buf ++ [0x80] } .pad r (some .lengthField) none) := by
      rw [tick_pad (by simpa using hr) (by simp), seqPad_terminator_short (by simp) (by simp) hshort]
      cases op <;> rfl
    refine .head htick (reaches_lengthField hr ?_)
    rw [List.length_append, List.length_singleton]
    omega
  · have hroom : (c.buf ++ [0x80]).length ≤ 64 := by
      rw [List.length_append, List.length_singleton]
      omega
    have hblock := Ctx.absorbBlocks_of_block c (zeroFill_length hroom)
    rw [paddedMessage_of_ge hlong hlt, Ctx.absorbBlocks_append]
    refine (reaches_padCompress hr (zeroFill_length hroom) (seqPad_terminator_long (by simp) (by simp) hlong)).trans ?_
    rw [hblock]
    exact reaches_lengthField hr (Nat.zero_le 56)

end

end Sys2Proof.Machine
end

section
/-!
ENCODE (spec/43_digest_encoding.md R199), and with it all of a command: the sequencer ends where the command's one atomic step does.
-/
namespace Sys2Proof.Machine

variable {s : State} {op : Op} {c : Ctx} {r : DWord}

theorem State.working_set_enc (phase : Phase) (pad : Option PadStep) (enc enc' : Option Encoder) :
    { s.working op c phase r pad enc with trans := { (s.working op c phase r pad enc).trans with enc := enc' } } =
      s.working op c phase r pad enc' := by
  cases op <;> rfl

/-- The end of a FINALIZE or EVAL with the hash h (42_finalize.md R168, R169, 44_host_commands.md R211). -/
def State.published (s : State) (op : Op) (h : Hash) : State :=
  (if op = .eval then s.writeOutputs (serializeRaw h) (serializeHex h)
    else (s.writeOutputs (serializeRaw h) (serializeHex h)).clearContext).finishCommand

/-- Publication keeps neither the active context nor the serializer's registers. -/
theorem seqPublish_working (h : Hash) (phase : Phase) (pad : Option PadStep) (enc : Option Encoder) :
    seqPublish (serializeRaw h) (serializeHex h) (s.working op c phase r pad enc) = s.published op h := by
  cases op <;> rfl

theorem seqEncode_latch (henc : s.trans.enc = none) (hact : s.activeCtx = some c) :
    seqEncode s = .next { s with
      trans := { s.trans with
        enc := some { shift := hashWord c.h 0, j := 0, m := 0, hexDone := [], rawDone := [] } } } := by
  simp only [seqEncode, henc, hact]

/-- The characters and words still to produce, by induction on their number. -/
theorem reaches_publish_of_agrees {e : Encoder} (hr : s.rst = false) (he : e.Agrees c.h) :
    (s.working op c .encode r none (some e)).Reaches (s.published op c.h) := by
  induction hk : 9 * (4 - e.j) + (8 - e.m) using Nat.strong_induction_on generalizing e with
  | _ k ih =>
    subst hk
    obtain ⟨t, ht⟩ := seqEncode_answers (State.working_activeCtx s op c .encode r none (some e))
    have htick := (tick_encode (by simpa using hr) (by simp)).trans ht
    obtain ⟨c', hact, hcase⟩ := seqEncode_next ht
    obtain rfl : c = c' := by simpa using hact
    obtain ⟨henc, -⟩ | ⟨e', henc, hstep⟩ := hcase
    · simp at henc
    · obtain rfl : e = e' := by simpa using henc
      obtain ⟨hm, rfl⟩ | ⟨hm, hj, rfl⟩ | ⟨hm, hj, rfl⟩ := hstep
      · rw [State.working_set_enc] at htick
        exact .head htick (ih _ (by dsimp only; omega) (he.character hm) rfl)
      · rw [State.working_set_enc] at htick
        exact .head htick (ih _ (by dsimp only; omega) (he.nextWord hm hj) rfl)
      · obtain ⟨hraw, hhex⟩ := he.complete hm hj
        rw [hraw, hhex, seqPublish_working] at htick
        exact .of_tick htick

theorem reaches_publish (hr : s.rst = false) : (s.working op c .encode r none none).Reaches (s.published op c.h) := by
  have htick := (tick_encode (by simpa using hr) (by simp)).trans
    (seqEncode_latch (State.working_enc s op c .encode r none none) (State.working_activeCtx s op c .encode r none none))
  rw [State.working_set_enc] at htick
  exact .head htick (reaches_publish_of_agrees hr (Encoder.agrees_latch c.h))

/-- The step that finds the payload complete. -/
theorem tick_payloadDone (hr : s.rst = false) :
    tick (s.working op c .absorb 0 none none) = .next (seqPayloadDone (s.working op c .absorb 0 none none)) := by
  rw [tick_absorb (by simpa using hr) (by simp)]
  simp [seqAbsorb]

/-- PAD and ENCODE: the padded rest is absorbed, and the hash published. -/
theorem reaches_digest (hr : s.rst = false) (hlt : c.buf.length < 64) (hop : op = .finalize ∨ op = .eval) :
    (s.working op c .absorb 0 none none).Reaches
      (s.published op (c.absorbBlocks (paddedMessage c.buf c.len)).h) := by
  have hpad : seqPayloadDone (s.working op c .absorb 0 none none) = s.working op c .pad 0 (some .terminator) none := by
    obtain rfl | rfl := hop <;> rfl
  have htick := tick_payloadDone (op := op) (c := c) hr
  rw [hpad] at htick
  exact .head htick ((reaches_encode hr hlt).trans (reaches_publish hr))

theorem payloadCount_toNat {p : List Byte} (h : p.length < 2 ^ 64) : (payloadCount p).toNat = p.length := by
  rw [payloadCount, BitVec.toNat_ofNat, Nat.mod_eq_of_lt h]

theorem countOf_countWords {p : List Byte} (h : p.length < 2 ^ 64) :
    countOf (BitVec.ofNat 32 (p.length % 2 ^ 32)) (BitVec.ofNat 32 (p.length / 2 ^ 32)) = payloadCount p :=
  BitVec.eq_of_toNat_eq ((countOf_split_toNat h).trans (payloadCount_toNat h).symm)

theorem State.startCtx_buf_length (hlt : s.ctx.buf.length < 64) : (s.startCtx op).buf.length < 64 := by
  rw [State.startCtx]
  split
  · exact Ctx.initial_settled.1
  · exact hlt

section
variable {p bs : List Byte} {ws : List Word}

/-- The whole transaction, taken off the ports: the active context is the one UPDATE leaves. -/
theorem reaches_payload (hs : s.Ready) (hlt : s.ctx.buf.length < 64) (hop : op ≠ .clear) (hp : p.length < 2 ^ 64)
    (hc : s.cmdIn = op.word :: countWords p ++ ws) (hb : s.payIn = p ++ bs) :
    s.Reaches ((State.accepted { s with cmdIn := ws, payIn := bs } op).working op ((s.startCtx op).update p) .absorb 0
      none none) := by
  have hbegin := reaches_absorb hs hop hc
  rw [countOf_countWords hp] at hbegin
  have hstart := State.startCtx_buf_length (op := op) hlt
  have hbytes := reaches_absorbBlocks (s := State.accepted { s with cmdIn := ws } op) (op := op)
    (c := { s.startCtx op with len := (s.startCtx op).len + payloadCount p }) hs.1 hstart (payloadCount_toNat hp) hb
  rw [Ctx.update_eq_absorbBlocks hstart]
  exact hbegin.trans hbytes

/-- FINALIZE and EVAL publish the hash of the context they began on. -/
theorem reaches_finalHash (hs : s.Ready) (hlt : s.ctx.buf.length < 64) (hop : op = .finalize ∨ op = .eval)
    (hp : p.length < 2 ^ 64) (hc : s.cmdIn = op.word :: countWords p ++ ws) (hb : s.payIn = p ++ bs) :
    s.Reaches ((State.accepted { s with cmdIn := ws, payIn := bs } op).published op ((s.startCtx op).finalHash p)) := by
  have hne : op ≠ .clear := by obtain rfl | rfl := hop <;> decide
  have hstart := State.startCtx_buf_length (op := op) hlt
  rw [Ctx.finalHash_eq_update hstart]
  exact (reaches_payload hs hlt hne hp hc hb).trans (reaches_digest hs.1 (Ctx.update_buf_length_lt hstart p) hop)

end

/-- The sequencer takes a whole transaction to the command's effect. -/
theorem reaches_effectOf {i : Instr} {ws : List Word} {bs : List Byte} (hs : s.Ready) (hlt : s.ctx.buf.length < 64)
    (hd : decode s.cmdIn s.payIn = .complete i ws bs) : s.Reaches (effectOf i { s with cmdIn := ws, payIn := bs }) := by
  obtain ⟨hwf, hc, hb⟩ := decode_complete hd
  cases i with
  | clear =>
    have hpay : s.payIn = bs := hb
    rw [← hpay]
    exact .of_tick (tick_clear_word hs hc (decodeOp_word .clear))
  | update p => exact (reaches_payload hs hlt (by decide) hwf hc hb).trans (.of_tick (tick_payloadDone hs.1))
  | finalize p => exact reaches_finalHash hs hlt (.inl rfl) hwf hc hb
  | eval p => exact reaches_finalHash hs hlt (.inr rfl) hwf hc hb

/-- Settles O57: in a ready state `exec` answers the command's effect, which the sequencer reaches. -/
theorem sequencerRefinesEveryCommand : Obligations.SequencerRefinesEveryCommand := by
  intro s i ws bs hs hlt hd
  obtain ⟨n, hn⟩ := reaches_effectOf hs hlt hd
  have hs' : State.Ready { s with cmdIn := ws, payIn := bs } := hs
  exact ⟨n, _, hn, exec_ready hs' i⟩

end Sys2Proof.Machine
end
